-- ==== Sys2Proof/Word.lean ====
section
/-! DEFINITION. The word types of BGD-GF8: what the spec treats as bits. -/

namespace Sys2Proof

/-- A field element, an element register or one byte of LMEM (00_scope R11, 10_state R23, R27). -/
abbrev Byte := BitVec 8

/-- A 16-bit field of LAGR's share table (42_lagrange R171). -/
abbrev Half := BitVec 16

/-- A command word, a host data word or a control register (20_memory R61, 30_encoding R100). -/
abbrev Word := BitVec 32

/-- An element register number, a 4-bit field of the command word (30_encoding R102). -/
abbrev Reg := BitVec 4

/-- The IMM12 field read as an LMEM byte address (30_encoding R103). -/
abbrev Addr := BitVec 12

end Sys2Proof
end

