-- ==== Sys2Proof/Syntax.lean ====
section
/-! DEFINITION. The commands of BGD-GF8 (30_encoding R106, R113), one constructor per row of the opcode table, and the raw fields of a command word. -/

namespace Sys2Proof

/-- A command, with the operands its row uses (30_encoding R106). Each operand has exactly the width its field
gives it, so every term is a command some word encodes. -/
inductive Instr where
  /-- `FADD ed, es1, es2` (40_field R135). -/
  | fadd (rd rs1 rs2 : Reg)
  /-- `FSUB ed, es1, es2` (40_field R136). -/
  | fsub (rd rs1 rs2 : Reg)
  /-- `FMUL ed, es1, es2` (40_field R137). -/
  | fmul (rd rs1 rs2 : Reg)
  /-- `FINV ed, es1` (40_field R138). -/
  | finv (rd rs1 : Reg)
  /-- `FDIV ed, es1, es2` (40_field R139). -/
  | fdiv (rd rs1 rs2 : Reg)
  /-- `PEVAL ed, ex, en, addr` (41_polynomial R160). -/
  | peval (rd rs1 rs2 : Reg) (addr : Addr)
  /-- `LAGR addr` (42_lagrange R177). -/
  | lagr (addr : Addr)
  /-- `LDI ed, imm8` (43_move_wipe R200). -/
  | ldi (rd : Reg) (imm8 : Byte)
  /-- `LD ed, addr` (43_move_wipe R201). -/
  | ld (rd : Reg) (addr : Addr)
  /-- `ST es1, addr` (43_move_wipe R202). -/
  | st (rs1 : Reg) (addr : Addr)
  /-- `WIPE` (43_move_wipe R203). -/
  | wipe
  deriving DecidableEq, Repr

/-- The mnemonics of the opcode table (30_encoding R106). -/
inductive Op where
  | fadd | fsub | fmul | finv | fdiv | peval | lagr | ldi | ld | st | wipe
  deriving DecidableEq, Repr

/-- The fields of a command word (30_encoding R101). -/
structure Fields where
  /-- Bits 7:0. -/
  op : BitVec 8
  /-- Bits 11:8. -/
  rd : BitVec 4
  /-- Bits 15:12. -/
  rs1 : BitVec 4
  /-- Bits 19:16. -/
  rs2 : BitVec 4
  /-- Bits 31:20. -/
  imm12 : BitVec 12
  deriving DecidableEq, Repr

/-- A row of the opcode table as bit patterns (30_encoding R107). -/
structure Row where
  op : Op
  pattern : Word
  mask : Word
  deriving DecidableEq, Repr

end Sys2Proof
end

