-- ==== Sys2Proof/WellFormed.lean ====
section
/-! DEFINITION. When the fields of a command word are a legal command: the opcode map with its must-be-0 fields (30_encoding R106, R109). Decode.lean reads words by match and mask (R107) and does not use this check. A statement says that the two agree. -/

namespace Sys2Proof

/-- The fields name an assigned opcode and every field that opcode's row of R106 requires to be 0 is 0. -/
def Fields.wellFormed (f : Fields) : Bool :=
  (f.op == 0x01#8 && f.imm12 == 0)
  || (f.op == 0x02#8 && f.imm12 == 0)
  || (f.op == 0x03#8 && f.imm12 == 0)
  || (f.op == 0x04#8 && f.rs2 == 0 && f.imm12 == 0)
  || (f.op == 0x05#8 && f.imm12 == 0)
  || f.op == 0x08#8
  || (f.op == 0x0C#8 && f.rd == 0 && f.rs1 == 0 && f.rs2 == 0)
  || (f.op == 0x10#8 && f.rs1 == 0 && f.rs2 == 0 && f.imm12.extractLsb' 8 4 == 0#4)
  || (f.op == 0x11#8 && f.rs1 == 0 && f.rs2 == 0)
  || (f.op == 0x12#8 && f.rd == 0 && f.rs2 == 0)
  || (f.op == 0x1F#8 && f.rd == 0 && f.rs1 == 0 && f.rs2 == 0 && f.imm12 == 0)

end Sys2Proof
end

