-- ==== Sys2Proof/Decode.lean ====
section
/-! DEFINITION. The decoder, total on every 32-bit word, by match and mask (30_encoding R107, R110, R111), and the encoder (R108). -/

namespace Sys2Proof

/-- The fields of a command word (30_encoding R101). -/
def fieldsOf (c : Word) : Fields where
  op := c.extractLsb' 0 8
  rd := c.extractLsb' 8 4
  rs1 := c.extractLsb' 12 4
  rs2 := c.extractLsb' 16 4
  imm12 := c.extractLsb' 20 12

/-- Assembling a word from its fields (30_encoding R101, R108), the high field on the left. -/
def wordOf (f : Fields) : Word :=
  f.imm12 ++ f.rs2 ++ f.rs1 ++ f.rd ++ f.op

/-- The opcode table (30_encoding R107). -/
def opcodeRows : List Row :=
  [ ⟨.fadd, 0x00000001, 0xFFF000FF⟩,
    ⟨.fsub, 0x00000002, 0xFFF000FF⟩,
    ⟨.fmul, 0x00000003, 0xFFF000FF⟩,
    ⟨.finv, 0x00000004, 0xFFFF00FF⟩,
    ⟨.fdiv, 0x00000005, 0xFFF000FF⟩,
    ⟨.peval, 0x00000008, 0x000000FF⟩,
    ⟨.lagr, 0x0000000C, 0x000FFFFF⟩,
    ⟨.ldi, 0x00000010, 0xF00FF0FF⟩,
    ⟨.ld, 0x00000011, 0x000FF0FF⟩,
    ⟨.st, 0x00000012, 0x000F0FFF⟩,
    ⟨.wipe, 0x0000001F, 0xFFFFFFFF⟩ ]

/-- A word c encodes the command of a row when `(c AND mask) == match` (30_encoding R107). -/
def rowMatches (r : Row) (c : Word) : Bool :=
  (c &&& r.mask) == r.pattern

/-- The immediate of LDI, bits 27:20 of the word, the low byte of IMM12 (30_encoding R104). -/
def ldiImm (imm12 : BitVec 12) : Byte :=
  imm12.extractLsb' 0 8

/-- The command of a row, with the operands the row uses (30_encoding R106). -/
def buildInstr (op : Op) (f : Fields) : Instr :=
  match op with
  | .fadd => .fadd f.rd f.rs1 f.rs2
  | .fsub => .fsub f.rd f.rs1 f.rs2
  | .fmul => .fmul f.rd f.rs1 f.rs2
  | .finv => .finv f.rd f.rs1
  | .fdiv => .fdiv f.rd f.rs1 f.rs2
  | .peval => .peval f.rd f.rs1 f.rs2 f.imm12
  | .lagr => .lagr f.imm12
  | .ldi => .ldi f.rd (ldiImm f.imm12)
  | .ld => .ld f.rd f.imm12
  | .st => .st f.rs1 f.imm12
  | .wipe => .wipe

/-- Decoding (30_encoding R110, R111): the command of the row the word matches, or none, an illegal word (R109). -/
def decode (c : Word) : Option Instr :=
  (opcodeRows.find? fun r => rowMatches r c).map fun r => buildInstr r.op (fieldsOf c)

/-- The fields of a command: a field it does not use is 0 (30_encoding R108). -/
def instrFields (i : Instr) : Fields :=
  match i with
  | .fadd rd rs1 rs2 => ⟨0x01, rd, rs1, rs2, 0⟩
  | .fsub rd rs1 rs2 => ⟨0x02, rd, rs1, rs2, 0⟩
  | .fmul rd rs1 rs2 => ⟨0x03, rd, rs1, rs2, 0⟩
  | .finv rd rs1 => ⟨0x04, rd, rs1, 0, 0⟩
  | .fdiv rd rs1 rs2 => ⟨0x05, rd, rs1, rs2, 0⟩
  | .peval rd rs1 rs2 addr => ⟨0x08, rd, rs1, rs2, addr⟩
  | .lagr addr => ⟨0x0C, 0, 0, 0, addr⟩
  | .ldi rd imm8 => ⟨0x10, rd, 0, 0, imm8.setWidth 12⟩
  | .ld rd addr => ⟨0x11, rd, 0, 0, addr⟩
  | .st rs1 addr => ⟨0x12, 0, rs1, 0, addr⟩
  | .wipe => ⟨0x1F, 0, 0, 0, 0⟩

/-- The command word of a command (30_encoding R108). -/
def encode (i : Instr) : Word :=
  wordOf (instrFields i)

/-- A command is well-formed when its fields are. -/
def instrWellFormed (i : Instr) : Bool :=
  (instrFields i).wellFormed

/-- The command the decoder reads from a word whose bits are w, bit 0 the least significant; a bit at or above
nbits is 0. The word is carried whole by one transaction, so no byte order applies to it (20_memory R68). -/
def decodeTableWord (nbits w : Nat) : Option Instr :=
  decode (BitVec.ofNat 32 (w % 2 ^ nbits))

end Sys2Proof
end

