-- ==== Sys2Proof/Machine/Gf8.lean ====
section
/-! DEFINITION. The field functions gadd, gsub, gmul, ginv and gdiv on GF(2^8) modulo 0x11B (40_field R130 to R134). -/

namespace Sys2Proof.Machine

/-- Addition is bitwise XOR (40_field R130). -/
def gadd (a b : Byte) : Byte :=
  a ^^^ b

/-- Subtraction is bitwise XOR (40_field R130). -/
def gsub (a b : Byte) : Byte :=
  a ^^^ b

/-- The running product's step in a round of R131: shift left, and reduce by 0x1B if bit 7 was shifted out. -/
def gdouble (a : Byte) : Byte :=
  if a.getLsbD 7 then (a <<< 1) ^^^ 0x1B else a <<< 1

/-- The rounds of R131, n of them left: the accumulator p, the running product a, the multiplier b. -/
def gmulRounds : Nat → Byte → Byte → Byte → Byte
  | 0, p, _, _ => p
  | n + 1, p, a, b => gmulRounds n (if b.getLsbD 0 then p ^^^ a else p) (gdouble a) (b >>> 1)

/-- Multiplication by the 8-round method (40_field R131). -/
def gmul (a b : Byte) : Byte :=
  gmulRounds 8 0x00 a b

/-- The loop of R133 for the exponent bits k - 1 down to 0 of 254. -/
def ginvRounds (a : Byte) : Nat → Byte → Byte
  | 0, r => r
  | k + 1, r =>
    let sq := gmul r r
    ginvRounds a k (if Nat.testBit 254 k then gmul sq a else sq)

/-- The inverse a^254 (40_field R133), defined only for a ≠ 0: every caller tests for 0x00 first. -/
def ginv (a : Byte) : Byte :=
  ginvRounds a 8 0x01

/-- Division (40_field R134), defined only for b ≠ 0: every caller tests for 0x00 first. -/
def gdiv (a b : Byte) : Byte :=
  gmul a (ginv b)

end Sys2Proof.Machine
end

