-- ==== Sys2Proof/Config.lean ====
section
/-! DEFINITION. What is fixed for BGD-GF8 (00_scope R8, 10_state R22), and the free values of the parameters the spec leaves OPEN. -/

namespace Sys2Proof

/-- LMEM_SIZE (00_scope R8). -/
def Config.lmemSize : Nat := 4096

/-- LMEM_RESET (00_scope R8, 70_reset R260): the byte LMEM holds at an address after an edge of rst,
first argument the number of the draw, second the address. A FREE VALUE: no body, any 4096 bytes, stable between reads
(92_eei_decisions D29). DESIGN CHOICE, log 1. -/
opaque Config.lmemReset : Nat → Nat → Byte

/-- The per-byte draw of a soft reset that aborts a command (70_reset R262, 93 I4): first argument the draw,
second the address; true where the byte ends with the value the completed command would have left.
A FREE VALUE: no body. DESIGN CHOICE, log 2. -/
opaque Config.abortTakesNew : Nat → Nat → Bool

end Sys2Proof
end

