-- ==== Sys2Proof/Machine/State.lean ====
section
/-! DEFINITION. The state of BGD-GF8 as plain data (10_state), the host's transactions and answers, and the reasons a step can stop. -/

namespace Sys2Proof.Machine

/-- Why the machine stops. Both are safe, the model stops where the spec gives no effect, and neither is ever
reached: the spec's checks come first (obligation EveryStepAnswersNext). -/
inductive Fault where
  /-- Raised by State.memRead and State.memWrite at an address at or above LMEM_SIZE, where MemRead and MemWrite are
  not defined (00_scope R10). Safe: no byte is invented. -/
  | lmemOutside (addr : Nat)
  /-- Raised by basis (LAGR) if a denominator were 0x00, where ginv is not defined (40_field R133, 42_lagrange R181).
  Safe: no inverse of 0 is invented. -/
  | inverseOfZero
  deriving DecidableEq, Repr

/-- Why a step has no meaning. -/
inductive Refusal where
  /-- Raised by exec's arm of a command that has no meaning in the model. Safe. No arm raises it now. -/
  | notModelled (mnemonic : String)
  deriving DecidableEq, Repr

/-- The errors of a failed completion (60_exceptions R221). -/
inductive ErrorCode where
  | illegalCmd
  | divideByZero
  | emptyShareSet
  | duplicateShareId
  | mismatchedShareLength
  | addressRange
  deriving DecidableEq, Repr

/-- What arrives from outside the unit: the two transactions of the host port (20_memory R61), with a byte offset
from the window's base, and an edge of the hardware reset input (R60). -/
inductive Transaction where
  | read (off : Nat)
  | write (off : Nat) (data : Word)
  /-- rst is asserted (true) or released (false). -/
  | rst (asserted : Bool)
  deriving DecidableEq, Repr

/-- A transaction that is still to arrive, and whether the completion of a pending command falls before it: any
interleaving of completion and transactions is such a choice (20_memory R77, R78, 60_exceptions R226). The model's
form of LATENCY (70_reset R269). DESIGN CHOICE, log 3. -/
structure Arrival where
  what : Transaction
  afterCompletion : Bool
  deriving DecidableEq, Repr

/-- The response to a host transaction (20_memory R61, R64). -/
inductive RespCode where
  | ok
  | error
  deriving DecidableEq, Repr

/-- One answer at the host port: a read carries a data word (20_memory R61). -/
inductive Response where
  | read (code : RespCode) (data : Word)
  | write (code : RespCode)
  deriving DecidableEq, Repr

/-- The machine. STATUS.BUSY, the ID constant and irq hold no state of their own (10_state R28, R30, R38). -/
structure State where
  /-- E0..E15 (10_state R23). -/
  e : Vector Byte 16
  /-- The bytes of LMEM written since the last hardware reset, in rising address order; an unlisted address holds what
  that reset left there (10_state R27, log 1). -/
  lmem : List Host.Cell
  /-- PEND, the accepted command word that has not completed (10_state R28). -/
  pend : Option Word
  /-- LASTCMD (10_state R31). -/
  lastCmd : Word
  /-- STATUS.DONE (10_state R32). -/
  done : Bool
  /-- STATUS.ERR (10_state R32, R33). -/
  err : Bool
  /-- STATUS.OVR (10_state R32). -/
  ovr : Bool
  /-- STATUS.ERRCODE (10_state R34). -/
  errCode : Byte
  /-- ERRINFO (10_state R37). -/
  errInfo : Word
  /-- CTRL.IE (10_state R35). -/
  ie : Bool
  /-- The level of the reset input, true while it is asserted (20_memory R60, 70_reset R260, log 7). -/
  rst : Bool
  /-- The model's own: what is still to arrive, in delivery order (log 3). -/
  inputs : List Arrival
  /-- The model's own: the answers given at the host port, newest first (70_reset R270, log 4). -/
  responses : List Response
  /-- The model's own: which draw of LMEM_RESET is in force (log 1). -/
  lmemDraw : Nat
  /-- The model's own: which draw of the soft reset's per-byte choice is next (log 2). -/
  abortDraw : Nat
  deriving DecidableEq, Repr

/-- The machine right after a hardware reset (10_state R42, 70_reset R260): every register 0, PEND empty, no byte of
LMEM written, rst released. The model's own fields: nothing to arrive, nothing answered, the first draws. -/
def State.reset : State where
  e := Vector.replicate 16 0
  lmem := []
  pend := none
  lastCmd := 0
  done := false
  err := false
  ovr := false
  errCode := 0
  errInfo := 0
  ie := false
  rst := false
  inputs := []
  responses := []
  lmemDraw := 0
  abortDraw := 0

end Sys2Proof.Machine
end

