-- ==== Sys2Proof/Machine/Ops.lean ====
section
/-! DEFINITION. The named operations over LMEM and the element registers, raising an error and recording it (the unit's exception entry, 60_exceptions R227), leaving the error state (R228), and the completion of a command (20_memory R77). -/

namespace Sys2Proof.Machine

/-- The byte listed at an address, none where no write since the last hardware reset has reached it. -/
def lmemFind : List Host.Cell → Nat → Option Byte
  | [], _ => none
  | (b, v) :: rest, a => if a = b then some v else lmemFind rest a

/-- Writing a byte keeps the list in rising address order, one entry an address. -/
def lmemPut : List Host.Cell → Nat → Byte → List Host.Cell
  | [], a, v => [(a, v)]
  | (b, w) :: rest, a, v =>
    if a < b then (a, v) :: (b, w) :: rest
    else if a = b then (a, v) :: rest
    else (b, w) :: lmemPut rest a v

/-- Strictly rising addresses. -/
def lmemRising : List Host.Cell → Bool
  | [] => true
  | [_] => true
  | (a, _) :: (b, w) :: rest => decide (a < b) && lmemRising ((b, w) :: rest)

/-- The canonical form of LMEM: strictly rising addresses, each below LMEM_SIZE (20_memory R62). -/
def Memory.wf (m : List Host.Cell) : Bool :=
  lmemRising m && m.all fun c => decide (c.1 < Config.lmemSize)

/-- n cells of 0x00 from address a. -/
def zeroCells : Nat → Nat → List Host.Cell
  | _, 0 => []
  | a, n + 1 => (a, 0) :: zeroCells (a + 1) n

/-- For n addresses from a: the new list's cell where the draw takes the new value, else the old list's
(70_reset R262). -/
def lmemPick (takesNew : Nat → Bool) (old new : List Host.Cell) : Nat → Nat → List Host.Cell
  | _, 0 => []
  | a, n + 1 =>
    match lmemFind (if takesNew a then new else old) a with
    | some v => (a, v) :: lmemPick takesNew old new (a + 1) n
    | none => lmemPick takesNew old new (a + 1) n

/-- The byte LMEM holds at an address: the last byte written there since the last hardware reset, else what that
reset left, the free value LMEM_RESET (10_state R27, 70_reset R260, log 1). -/
def State.lmemAt (s : State) (a : Nat) : Byte :=
  (lmemFind s.lmem a).getD (Config.lmemReset s.lmemDraw a)

/-- Why the rule of a command ends early: it raises one of the unit's errors with its detail word (00_scope R10), or the
model itself stops. -/
inductive Stop where
  | raised (code : ErrorCode) (info : Word)
  | stuck (f : Fault)
  deriving DecidableEq, Repr

/-- `raise <Error>(info)` where the condition holds (00_scope R10). -/
def raiseIf (cond : Bool) (code : ErrorCode) (info : Word) : Except Stop Unit :=
  if cond then .error (.raised code info) else .ok ()

/-- `MemRead(addr, 1)` (00_scope R10), defined only below LMEM_SIZE. -/
def State.memRead (s : State) (a : Nat) : Except Stop Byte :=
  if a < Config.lmemSize then .ok (s.lmemAt a) else .error (.stuck (.lmemOutside a))

/-- `MemRead(addr, 2)`, little-endian (00_scope R10, 20_memory R68). -/
def State.memRead16 (s : State) (a : Nat) : Except Stop Half := do
  let lo ← s.memRead a
  let hi ← s.memRead (a + 1)
  return hi ++ lo

/-- LMEM with the byte v at a. -/
def State.putByte (s : State) (a : Nat) (v : Byte) : State :=
  { s with lmem := lmemPut s.lmem a v }

/-- `MemWrite(addr, 1, v)` (00_scope R10), defined only below LMEM_SIZE. -/
def State.memWrite (s : State) (a : Nat) (v : Byte) : Except Stop State :=
  if a < Config.lmemSize then .ok (s.putByte a v) else .error (.stuck (.lmemOutside a))

/-- `E[r]` (00_scope R10, 10_state R23). -/
def State.readE (s : State) (r : Reg) : Byte :=
  s.e[r.toNat]'(by have := r.isLt; omega)

/-- `E[r] <- v` (00_scope R10). -/
def State.writeE (s : State) (r : Reg) (v : Byte) : State :=
  { s with e := s.e.set r.toNat v (by have := r.isLt; omega) }

/-- Every element register and every LMEM byte at 0x00 (43_move_wipe R203). -/
def State.zeroAll (s : State) : State :=
  { s with e := Vector.replicate 16 0, lmem := zeroCells 0 Config.lmemSize }

/-- The code of an error, as STATUS.ERRCODE holds it (60_exceptions R221). -/
def errorNumber : ErrorCode → Byte
  | .illegalCmd => 0x01
  | .divideByZero => 0x02
  | .emptyShareSet => 0x03
  | .duplicateShareId => 0x04
  | .mismatchedShareLength => 0x05
  | .addressRange => 0x06

/-- ERROR ENTRY, the failure branch of completion (60_exceptions R227, 20_memory R77): ERR, ERRCODE and ERRINFO record
the error and BUSY falls; no other state changes. -/
def State.recordError (s : State) (code : ErrorCode) (info : Word) : State :=
  { s with pend := none, err := true, errCode := errorNumber code, errInfo := info }

/-- LEAVING THE ERROR STATE, the effect of CTRL.CLR (60_exceptions R228, 10_state R35). -/
def State.clearStatus (s : State) : State :=
  { s with done := false, err := false, ovr := false, errCode := 0, errInfo := 0 }

/-- The success branch of completion (20_memory R77): BUSY falls and DONE rises. -/
def State.recordDone (s : State) : State :=
  { s with pend := none, done := true }

/-- COMPLETION of a command whose rule, run on s, gives r (20_memory R77, 30_encoding R110): a raise discards every
write of the rule. -/
def complete (s : State) (r : Except Stop State) : Host.Outcome State Fault Refusal :=
  match r with
  | .ok t => .next t.recordDone
  | .error (.raised code info) => .next (s.recordError code info)
  | .error (.stuck f) => .fault f

end Sys2Proof.Machine
end

