-- ==== Sys2Proof/Machine/Operands.lean ====
section
/-! DEFINITION. The operand forms: the LMEM range check and its detail word (20_memory R76, 60_exceptions R222), the register detail word, the 16-bit fields of LAGR's share table (42_lagrange R171). -/

namespace Sys2Proof.Machine

/-- `in_range(a, n)` (20_memory R76), on unbounded naturals. -/
def inRange (a n : Nat) : Bool :=
  decide (n = 0 ∨ a + n ≤ Config.lmemSize)

/-- The detail word of ADDRESS_RANGE: the length in bits 31:16, the start in bits 15:0 (60_exceptions R222). -/
def rangeInfo (len start : Nat) : Word :=
  BitVec.ofNat 16 len ++ BitVec.ofNat 16 start

/-- `if not in_range(a, n): raise ADDRESS_RANGE` with the failing range (42_lagrange R172, 41_polynomial R160). -/
def requireRange (a n : Nat) : Except Stop Unit :=
  raiseIf (!inRange a n) .addressRange (rangeInfo n a)

/-- The detail word of DIVIDE_BY_ZERO: `zext_32` of the register's number (60_exceptions R222). -/
def regInfo (r : Reg) : Word :=
  r.setWidth 32

/-- The detail word of DUPLICATE_SHARE_ID: `(zext_32(m) << 8) | zext_32(j)` (42_lagrange R174). -/
def pairInfo (j m : Nat) : Word :=
  0#16 ++ BitVec.ofNat 8 m ++ BitVec.ofNat 8 j

/-- What LAGR holds of one share descriptor (42_lagrange R171, R178). -/
structure Share where
  id : Byte
  len : Half
  adr : Half
  deriving DecidableEq, Repr

/-- The descriptor at LMEM address d: ID at d, LEN at d + 2, ADR at d + 4 (42_lagrange R171, R177). -/
def State.readShare (s : State) (d : Nat) : Except Stop Share := do
  let id ← s.memRead d
  let len ← s.memRead16 (d + 2)
  let adr ← s.memRead16 (d + 4)
  return { id, len, adr }

/-- The descriptors j, j + 1, ..., n of them, of the table at t (42_lagrange R171, R177). -/
def State.readShares (s : State) (t : Nat) : Nat → Nat → Except Stop (List Share)
  | _, 0 => .ok []
  | j, n + 1 => do
    let first ← s.readShare (t + 4 + 6 * j)
    let rest ← s.readShares t (j + 1) n
    return first :: rest

end Sys2Proof.Machine
end

