-- ==== Sys2Proof/Machine/Field.lean ====
section
/-! DEFINITION. The field commands FADD, FSUB, FMUL, FINV and FDIV (40_field R135 to R139). -/

namespace Sys2Proof.Machine

/-- FADD (40_field R135): `E[RD] <- gadd(E[RS1], E[RS2])`. -/
def execFadd (rd rs1 rs2 : Reg) (s : State) : Host.Outcome State Fault Refusal :=
  complete s (.ok (s.writeE rd (gadd (s.readE rs1) (s.readE rs2))))

/-- FSUB (40_field R136): `E[RD] <- gsub(E[RS1], E[RS2])`. -/
def execFsub (rd rs1 rs2 : Reg) (s : State) : Host.Outcome State Fault Refusal :=
  complete s (.ok (s.writeE rd (gsub (s.readE rs1) (s.readE rs2))))

/-- FMUL (40_field R137): `E[RD] <- gmul(E[RS1], E[RS2])`. -/
def execFmul (rd rs1 rs2 : Reg) (s : State) : Host.Outcome State Fault Refusal :=
  complete s (.ok (s.writeE rd (gmul (s.readE rs1) (s.readE rs2))))

/-- FINV (40_field R138): DIVIDE_BY_ZERO with the number of RS1 if `E[RS1]` is 0x00, else `E[RD] <- ginv(E[RS1])`. -/
def execFinv (rd rs1 : Reg) (s : State) : Host.Outcome State Fault Refusal :=
  complete s do
    raiseIf (s.readE rs1 == 0x00) .divideByZero (regInfo rs1)
    return s.writeE rd (ginv (s.readE rs1))

/-- FDIV (40_field R139): DIVIDE_BY_ZERO with the number of RS2 if `E[RS2]` is 0x00, else
`E[RD] <- gdiv(E[RS1], E[RS2])`. -/
def execFdiv (rd rs1 rs2 : Reg) (s : State) : Host.Outcome State Fault Refusal :=
  complete s do
    raiseIf (s.readE rs2 == 0x00) .divideByZero (regInfo rs2)
    return s.writeE rd (gdiv (s.readE rs1) (s.readE rs2))

end Sys2Proof.Machine
end

