-- ==== Sys2Proof/Machine/Lagrange.lean ====
section
/-! DEFINITION. The Lagrange interpolation engine command LAGR (42_lagrange R170 to R182). -/

namespace Sys2Proof.Machine

/-- The first pair (j, m), j < m, of equal IDs, in order of increasing m and for each m of increasing j (42_lagrange
R174). The IDs before m are those already seen. -/
def firstDuplicate : List Byte → List Byte → Option (Nat × Nat)
  | _, [] => none
  | seen, x :: rest =>
    match seen.findIdx? (fun y => y == x) with
    | some j => some (j, seen.length)
    | none => firstDuplicate (seen ++ [x]) rest

/-- DUPLICATE_SHARE_ID of the first equal pair (42_lagrange R174). -/
def checkDistinct (ids : List Byte) : Except Stop Unit :=
  match firstDuplicate [] ids with
  | some (j, m) => .error (.raised .duplicateShareId (pairInfo j m))
  | none => .ok ()

/-- MISMATCHED_SHARE_LENGTH of the smallest j with `LEN[j] != LEN[0]` (42_lagrange R175). -/
def checkLengths (lens : List Half) (len0 : Half) : Except Stop Unit :=
  match lens.findIdx? (fun l => l != len0) with
  | some j => .error (.raised .mismatchedShareLength (BitVec.ofNat 32 j))
  | none => .ok ()

/-- ADDRESS_RANGE of the first payload of length len that reaches past LMEM (42_lagrange R172). -/
def checkPayloads (len : Nat) : List Share → Except Stop Unit
  | [] => .ok ()
  | sh :: rest => do
    requireRange sh.adr.toNat len
    checkPayloads len rest

/-- The loop of R176 over the shares m, m + 1, ... whose IDs are listed, for share j: the products num and den. -/
def basisProducts (xj : Byte) (j : Nat) : Nat → List Byte → Byte → Byte → Byte × Byte
  | _, [], num, den => (num, den)
  | m, xm :: rest, num, den =>
    if m = j then basisProducts xj j (m + 1) rest num den
    else basisProducts xj j (m + 1) rest (gmul num xm) (gmul den (gadd xj xm))

/-- `basis(j)` (42_lagrange R176). The denominator is never 0x00 after the duplicate check (R181), and the model stops
if it were. -/
def basis (ids : List Byte) (j : Nat) (xj : Byte) : Except Stop Byte :=
  let p := basisProducts xj j 0 ids 0x01 0x01
  if p.2 = 0x00 then .error (.stuck .inverseOfZero) else .ok (gdiv p.1 p.2)

/-- The coefficients B of the shares j, j + 1, ... whose IDs are listed last (42_lagrange R176). -/
def basisList (ids : List Byte) : Nat → List Byte → Except Stop (List Byte)
  | _, [] => .ok []
  | j, xj :: rest => do
    let b ← basis ids j xj
    let bs ← basisList ids (j + 1) rest
    return b :: bs

/-- Byte position i of R177: `acc = gadd(acc, gmul(MemRead(ADR[j] + i, 1), B[j]))` over the shares in order, each given
as ADR[j] and B[j]. -/
def State.laneSum (s : State) (i : Nat) : List (Nat × Byte) → Byte → Except Stop Byte
  | [], acc => .ok acc
  | (adr, b) :: rest, acc => do
    let y ← s.memRead (adr + i)
    s.laneSum i rest (gadd acc (gmul y b))

/-- The byte positions i, i + 1, ..., n of them: each position's payload bytes are read from LMEM as the positions before
it left it, and then its output byte is written (42_lagrange R177, R178). -/
def State.lanes (terms : List (Nat × Byte)) (out : Nat) : Nat → Nat → State → Except Stop State
  | _, 0, s => .ok s
  | i, n + 1, s => do
    let v ← s.laneSum i terms 0x00
    let s' ← s.memWrite (out + i) v
    State.lanes terms out (i + 1) n s'

/-- LAGR (42_lagrange R177), the checks in the order of 60_exceptions R224. -/
def execLagr (addr : Addr) (s : State) : Host.Outcome State Fault Refusal :=
  complete s do
    let t := addr.toNat
    requireRange t 4
    let count ← s.memRead t
    let out ← s.memRead16 (t + 2)
    raiseIf (count == 0x00) .emptyShareSet 0x00000000
    requireRange t (4 + 6 * count.toNat)
    let shares ← s.readShares t 0 count.toNat
    let ids := shares.map (·.id)
    checkDistinct ids
    let len0 := (shares.map (·.len)).headD 0
    checkLengths (shares.map (·.len)) len0
    checkPayloads len0.toNat shares
    requireRange out.toNat len0.toNat
    let bs ← basisList ids 0 ids
    State.lanes ((shares.map (·.adr.toNat)).zip bs) out.toNat 0 len0.toNat s

end Sys2Proof.Machine
end

