-- ==== Sys2Proof/Machine/MoveWipe.lean ====
section
/-! DEFINITION. The data-movement commands LDI, LD and ST and the wipe command WIPE (43_move_wipe R200 to R203). -/

namespace Sys2Proof.Machine

/-- LDI (43_move_wipe R200): `E[RD] <- c[27:20]`. -/
def execLdi (rd : Reg) (imm8 : Byte) (s : State) : Host.Outcome State Fault Refusal :=
  complete s (.ok (s.writeE rd imm8))

/-- LD (43_move_wipe R201): `E[RD] <- MemRead(IMM12, 1)`. -/
def execLd (rd : Reg) (addr : Addr) (s : State) : Host.Outcome State Fault Refusal :=
  complete s do
    let v ← s.memRead addr.toNat
    return s.writeE rd v

/-- ST (43_move_wipe R202): `MemWrite(IMM12, 1, E[RS1])`. -/
def execSt (rs1 : Reg) (addr : Addr) (s : State) : Host.Outcome State Fault Refusal :=
  complete s (s.memWrite addr.toNat (s.readE rs1))

/-- WIPE (43_move_wipe R203): every E register and every LMEM byte becomes 0x00. -/
def execWipe (s : State) : Host.Outcome State Fault Refusal :=
  complete s (.ok s.zeroAll)

end Sys2Proof.Machine
end

