-- ==== Sys2Proof/Machine/Polynomial.lean ====
section
/-! DEFINITION. The polynomial evaluator command PEVAL (41_polynomial R160 to R163). -/

namespace Sys2Proof.Machine

/-- The Horner loop of R160 over the n coefficients at a, highest first: `acc = gadd(gmul(acc, x), coeffs[i])` for i from
n - 1 down to 0. -/
def State.horner (s : State) (x : Byte) (a : Nat) : Nat → Byte → Except Stop Byte
  | 0, acc => .ok acc
  | n + 1, acc => do
    let c ← s.memRead (a + n)
    s.horner x a n (gadd (gmul acc x) c)

/-- PEVAL (41_polynomial R160): the point `E[RS1]`, the coefficient count `E[RS2]` (30_encoding R105), the coefficients
at IMM12, constant term first; ADDRESS_RANGE if they reach past LMEM. -/
def execPeval (rd rs1 rs2 : Reg) (addr : Addr) (s : State) : Host.Outcome State Fault Refusal :=
  complete s do
    requireRange addr.toNat (s.readE rs2).toNat
    let v ← s.horner (s.readE rs1) addr.toNat (s.readE rs2).toNat 0x00
    return s.writeE rd v

end Sys2Proof.Machine
end

