-- ==== Sys2Proof/Machine/Dispatch.lean ====
section
/-! DEFINITION. The completion of each command (30_encoding R110, 20_memory R77): one arm per constructor, one meaning each. -/

namespace Sys2Proof.Machine

def exec (i : Instr) (s : State) : Host.Outcome State Fault Refusal :=
  match i with
  | .fadd rd rs1 rs2 => Sys2Proof.Machine.execFadd rd rs1 rs2 s
  | .fsub rd rs1 rs2 => Sys2Proof.Machine.execFsub rd rs1 rs2 s
  | .fmul rd rs1 rs2 => Sys2Proof.Machine.execFmul rd rs1 rs2 s
  | .finv rd rs1 => Sys2Proof.Machine.execFinv rd rs1 s
  | .fdiv rd rs1 rs2 => Sys2Proof.Machine.execFdiv rd rs1 rs2 s
  | .peval rd rs1 rs2 addr => Sys2Proof.Machine.execPeval rd rs1 rs2 addr s
  | .lagr addr => Sys2Proof.Machine.execLagr addr s
  | .ldi rd imm8 => Sys2Proof.Machine.execLdi rd imm8 s
  | .ld rd addr => Sys2Proof.Machine.execLd rd addr s
  | .st rs1 addr => Sys2Proof.Machine.execSt rs1 addr s
  | .wipe => Sys2Proof.Machine.execWipe s

end Sys2Proof.Machine
end

