-- ==== Sys2Proof/Machine/Flags.lean ====
section
/-! DEFINITION. The flags and control registers as the host sees them: STATUS, CTRL, irq (10_state R32, R35, R38). BGD-GF8 has no arithmetic flags (R39). -/

namespace Sys2Proof.Machine

/-- STATUS.BUSY: 1 exactly when PEND holds a command (10_state R28). -/
def State.busy (s : State) : Bool :=
  s.pend.isSome

/-- STATUS (10_state R32): BUSY bit 0, DONE bit 1, ERR bit 2, OVR bit 3, ERRCODE bits 15:8, the others 0. -/
def State.statusWord (s : State) : Word :=
  0#16 ++ s.errCode ++ 0#4 ++ BitVec.ofBool s.ovr ++ BitVec.ofBool s.err ++ BitVec.ofBool s.done ++ BitVec.ofBool s.busy

/-- A read of CTRL returns `zext_32(IE)` (10_state R35). -/
def State.ctrlWord (s : State) : Word :=
  (BitVec.ofBool s.ie).setWidth 32

/-- The level interrupt output (10_state R38). -/
def State.irq (s : State) : Bool :=
  s.ie && (s.done || s.err)

/-- The ID register's constant (10_state R30). -/
def idValue : Word := 0x47463801

/-- A discarded host write sets STATUS.OVR and nothing else (20_memory R72). -/
def State.discard (s : State) : State :=
  { s with ovr := true }

/-- Acceptance of a command word (20_memory R75). -/
def State.accept (s : State) (w : Word) : State :=
  { s with pend := some w, lastCmd := w, done := false }

end Sys2Proof.Machine
end

