-- ==== Sys2Proof/Machine/HostPort.lean ====
section
/-! DEFINITION. The host port and the resets: the window map (20_memory R63 to R67), the busy rules (R71, R72), command acceptance (R75), the CTRL write (10_state R35), the soft reset (70_reset R262) and the hardware reset (R260). -/

namespace Sys2Proof.Machine

/-- What a window word is (20_memory R63). -/
inductive Place where
  | id
  | cmd
  | status
  | ctrl
  | errInfo
  | reserved
  /-- The word of E[k]. -/
  | element (k : Reg)
  /-- The word of the LMEM bytes 4w to 4w + 3, by its first byte address. -/
  | lmem (base : Nat)
  deriving DecidableEq, Repr

/-- The window map (20_memory R63); none where the response is ERROR (R64). -/
def placeOf (off : Nat) : Option Place :=
  if off % 4 ≠ 0 ∨ 0x2000 ≤ off then none
  else if 0x1000 ≤ off then some (.lmem (off - 0x1000))
  else if 0x040 ≤ off ∧ off ≤ 0x07C then some (.element (BitVec.ofNat 4 ((off - 0x040) / 4)))
  else if off = 0x000 then some .id
  else if off = 0x004 then some .cmd
  else if off = 0x008 then some .status
  else if off = 0x00C then some .ctrl
  else if off = 0x010 then some .errInfo
  else some .reserved

/-- The LMEM bytes base to base + 3 as a word, little-endian (20_memory R67). -/
def State.lmemWord (s : State) (base : Nat) : Word :=
  s.lmemAt (base + 3) ++ s.lmemAt (base + 2) ++ s.lmemAt (base + 1) ++ s.lmemAt base

/-- The four bytes of d at base to base + 3, little-endian (20_memory R67). -/
def State.putWord (s : State) (base : Nat) (d : Word) : State :=
  (((s.putByte base (d.extractLsb' 0 8)).putByte (base + 1) (d.extractLsb' 8 8)).putByte
    (base + 2) (d.extractLsb' 16 8)).putByte (base + 3) (d.extractLsb' 24 8)

/-- The data of a read at a window word (20_memory R65, R66, R67, R71, 10_state R30 to R37). -/
def State.readPlace (s : State) (p : Place) : Word :=
  match p with
  | .id => idValue
  | .cmd => s.lastCmd
  | .status => s.statusWord
  | .ctrl => s.ctrlWord
  | .errInfo => s.errInfo
  | .reserved => 0
  | .element k => if s.busy then 0 else (s.readE k).setWidth 32
  | .lmem base => if s.busy then 0 else s.lmemWord base

/-- `HostRead(off)`: the response and the data (20_memory R61, R64). It changes no state (R73). -/
def State.hostRead (s : State) (off : Nat) : RespCode × Word :=
  match placeOf off with
  | none => (.error, 0)
  | some p => (.ok, s.readPlace p)

/-- What LMEM would hold after a successful Execute(c), and what it holds now if Execute(c) fails (70_reset R262). -/
def State.lmemAfter (s : State) (c : Word) : List Host.Cell :=
  match decode c with
  | none => s.lmem
  | some i =>
    match exec i s with
    | .next t => t.lmem
    | .fault _ => s.lmem
    | .refused _ => s.lmem

/-- LMEM after a command in flight is aborted: each byte its current value or the value the completed command would leave
there, a draw per byte; unchanged where the command would change none (70_reset R262). -/
def State.abortedLmem (s : State) (c : Word) : List Host.Cell :=
  if s.lmemAfter c = s.lmem then s.lmem
  else lmemPick (Config.abortTakesNew s.abortDraw) s.lmem (s.lmemAfter c) 0 Config.lmemSize

/-- The abort of the command in flight, if there is one (70_reset R262). -/
def State.abort (s : State) : State :=
  match s.pend with
  | none => s
  | some c => { s with lmem := s.abortedLmem c, abortDraw := s.abortDraw + 1 }

/-- PEND, the element registers and the control and status registers at their reset values (10_state R42). -/
def State.resetRegisters (s : State) : State :=
  { s with
    e := Vector.replicate 16 0
    pend := none
    lastCmd := 0
    done := false
    err := false
    ovr := false
    errCode := 0
    errInfo := 0
    ie := false }

/-- `soft_reset()` (70_reset R262). -/
def State.softReset (s : State) : State :=
  s.abort.resetRegisters

/-- The hardware reset, when rst is asserted and when it is released (70_reset R260): the registers reset, the command in
flight abandoned, LMEM a fresh draw of LMEM_RESET. -/
def State.hardReset (s : State) (asserted : Bool) : State :=
  { s.resetRegisters with lmem := [], lmemDraw := s.lmemDraw + 1, rst := asserted }

/-- A host write of w to CMD (20_memory R75). -/
def State.writeCmd (s : State) (w : Word) : State :=
  if s.busy || s.err then s.discard else s.accept w

/-- A host write of w to CTRL (10_state R35): SRST first, then IE and CLR. -/
def State.writeCtrl (s : State) (w : Word) : State :=
  if w.getLsbD 2 then s.softReset
  else
    let t := { s with ie := w.getLsbD 0 }
    if w.getLsbD 1 then t.clearStatus else t

/-- The effect of a write of d at a window word (20_memory R65, R66, R67, R72, 10_state R31, R35). -/
def State.writePlace (s : State) (p : Place) (d : Word) : State :=
  match p with
  | .id => s
  | .cmd => s.writeCmd d
  | .status => s
  | .ctrl => s.writeCtrl d
  | .errInfo => s
  | .reserved => s
  | .element k => if s.busy then s.discard else s.writeE k (d.extractLsb' 0 8)
  | .lmem base => if s.busy then s.discard else s.putWord base d

/-- `HostWrite(off, data)` while rst is released: the response and the state after (20_memory R61, R64). -/
def State.hostWrite (s : State) (off : Nat) (d : Word) : RespCode × State :=
  match placeOf off with
  | none => (.error, s)
  | some p => (.ok, s.writePlace p d)

/-- The state with one more answer at the host port. -/
def State.answer (s : State) (r : Response) : State :=
  { s with responses := r :: s.responses }

/-- A host write takes effect: while rst is asserted the unit holds the state of 10_state R42, so only the answer is given
(70_reset R260, log 7). -/
def State.deliverWrite (s : State) (off : Nat) (d : Word) : State :=
  if s.rst then s.answer (.write (s.hostWrite off d).1)
  else (s.hostWrite off d).2.answer (.write (s.hostWrite off d).1)

/-- One arrival takes effect (20_memory R61, R78). -/
def State.deliver (s : State) (x : Transaction) : State :=
  match x with
  | .read off => s.answer (.read (s.hostRead off).1 (s.hostRead off).2)
  | .write off d => s.deliverWrite off d
  | .rst asserted => s.hardReset asserted

end Sys2Proof.Machine
end

