-- ==== Sys2Proof/Machine/Engine.lean ====
section
/-! DEFINITION. The execution engine's completion of the pending word (20_memory R77, 30_encoding R110, R112), and which agent moves next (20_memory R78, 70_reset R270). -/

namespace Sys2Proof.Machine

/-- Completion of the command word c: the command it decodes to, or ILLEGAL_CMD with the detail word 0 (30_encoding R110,
R112). -/
def completeWord (c : Word) (s : State) : Host.Outcome State Fault Refusal :=
  match decode c with
  | some i => exec i s
  | none => .next (s.recordError .illegalCmd 0x00000000)

/-- The completion falls before the next arrival, or there is none (20_memory R77, log 3). -/
def State.completesNow (s : State) : Bool :=
  match s.inputs with
  | [] => true
  | a :: _ => a.afterCompletion

/-- The next arrival takes effect; with none to come the unit is idle and all state holds its value (60_exceptions R239,
70_reset R270). -/
def State.receive (s : State) : State :=
  match s.inputs with
  | [] => s
  | a :: rest => { s with inputs := rest }.deliver a.what

/-- One step of the unit and its host: the completion of the pending command, or the next arrival (20_memory R77, R78). -/
def unitStep (s : State) : Host.Outcome State Fault Refusal :=
  match s.pend with
  | some c => if s.completesNow then completeWord c s else .next s.receive
  | none => .next s.receive

/-- The next arrival, if any, comes after the completion. -/
def State.holdArrivals (s : State) : List Arrival :=
  match s.inputs with
  | [] => []
  | a :: rest => { a with afterCompletion := true } :: rest

/-- The command word w accepted, from a state in which a CMD write is accepted (ERR = 0, 20_memory R75, and rst
released, 70_reset R260), and its completion next. -/
def State.withAccepted (s : State) (w : Word) : State :=
  { s.accept w with err := false, errCode := 0, errInfo := 0, rst := false, inputs := s.holdArrivals }

end Sys2Proof.Machine
end

