-- ==== Sys2Proof/Machine/Step.lean ====
section
/-! DEFINITION. One step of the machine, and the state whose next step runs a given command word. -/

namespace Sys2Proof.Machine

/-- One step (20_memory R77, R78). -/
def step (s : State) : Host.Outcome State Fault Refusal :=
  unitStep s

/-- The unit fetches nothing (10_state R21): the command word of nbits bits w is placed as an accepted command whose
completion is the next step (log 8). -/
def State.withFetchWord (s : State) (nbits w : Nat) : State :=
  s.withAccepted (BitVec.ofNat 32 (w % 2 ^ nbits))

end Sys2Proof.Machine
end

