-- ==== Sys2Proof/Safety.lean ====
section
/-! DEFINITION. The terms claims are stated in: what a safe step is, the invariants of 10_state R41 and of LMEM's form, what a command leaves unchanged, the share table as memory shows it, and the reference forms of the field arithmetic (40_field R132, 41_polynomial R161, 42_lagrange R170, R176). -/

namespace Sys2Proof.Machine

/-- The step answers a next state: neither a fault nor a refusal. -/
def Goes (o : Host.Outcome State Fault Refusal) : Prop :=
  ∃ t, o = .next t

/-- The state of 10_state R42: every register at its reset value, PEND empty, no byte of LMEM written. -/
abbrev State.AtReset (s : State) : Prop :=
  s.e = Vector.replicate 16 0x00 ∧ s.lmem = [] ∧ s.pend = none ∧ s.lastCmd = 0x00000000 ∧ s.done = false
    ∧ s.err = false ∧ s.ovr = false ∧ s.errCode = 0x00 ∧ s.errInfo = 0x00000000 ∧ s.ie = false

/-- The invariants of 10_state R41 (BUSY is computed from PEND, so the first of them holds by definition), and that
LASTCMD holds a copy of the pending word (R28), and that the unit is in the state of R42 while rst is asserted (70_reset
R260). -/
abbrev State.Legal (s : State) : Prop :=
  (s.pend = none ∨ s.pend = some s.lastCmd)
    ∧ (s.busy = true → s.done = false ∧ s.err = false)
    ∧ (s.err = false → s.errCode = 0x00 ∧ s.errInfo = 0x00000000)
    ∧ (s.err = true → 0x01 ≤ s.errCode.toNat ∧ s.errCode.toNat ≤ 0x06)
    ∧ (s.done = true → s.err = false)
    ∧ (s.rst = true → s.AtReset)

/-- A run is over: nothing is still to arrive and PEND is empty (70_reset R270). -/
abbrev State.Settled (s : State) : Prop :=
  s.inputs = [] ∧ s.pend = none

/-- Every element register holds the same value in both states. -/
def SameE (s t : State) : Prop :=
  ∀ r, t.readE r = s.readE r

/-- Every LMEM byte reads the same in both states. -/
def SameLmem (s t : State) : Prop :=
  ∀ a, t.lmemAt a = s.lmemAt a

/-- What no completion changes: OVR, IE, LASTCMD (20_memory R77), the level of rst and the model's own fields. -/
def SameControl (s t : State) : Prop :=
  t.ovr = s.ovr ∧ t.ie = s.ie ∧ t.lastCmd = s.lastCmd ∧ t.rst = s.rst ∧ t.inputs = s.inputs ∧ t.responses = s.responses
    ∧ t.lmemDraw = s.lmemDraw ∧ t.abortDraw = s.abortDraw

/-- Completion's success branch on the status (20_memory R77): BUSY falls, DONE rises, nothing else. -/
def Succeeded (s t : State) : Prop :=
  t.pend = none ∧ t.done = true ∧ t.err = s.err ∧ t.errCode = s.errCode ∧ t.errInfo = s.errInfo ∧ SameControl s t

/-- Completion's failure branch (20_memory R77, 60_exceptions R225, R227): the error is recorded, BUSY falls, and
nothing else changes. -/
def Failed (s t : State) (code : Byte) (info : Word) : Prop :=
  t.pend = none ∧ t.err = true ∧ t.errCode = code ∧ t.errInfo = info ∧ t.done = s.done ∧ SameControl s t
    ∧ SameE s t ∧ SameLmem s t

/-- E[rd] holds v, and every other element register is unchanged. -/
def WroteE (s t : State) (rd : Reg) (v : Byte) : Prop :=
  ∀ r, t.readE r = if r = rd then v else s.readE r

/-- What the words of one opcode mean: where every must-be-0 field is 0 the word decodes to the command i, and else it
decodes to none and its completion records ILLEGAL_CMD (30_encoding R109, R110, R112). -/
def WordMeans (f : Fields) (zeroFields : Prop) (i : Instr) : Prop :=
  (zeroFields → decode (wordOf f) = some i)
    ∧ (¬ zeroFields → decode (wordOf f) = none
      ∧ ∀ s : State, ∃ t, completeWord (wordOf f) s = .next t ∧ Failed s t 0x01 0x00000000)

/-- The two bytes at a, little-endian (20_memory R68). -/
def State.le16 (s : State) (a : Nat) : Nat :=
  (s.lmemAt a).toNat + 256 * (s.lmemAt (a + 1)).toNat

/-- S of the table at t (42_lagrange R171). -/
def State.tableCount (s : State) (t : Nat) : Nat := (s.lmemAt t).toNat

/-- OUT of the table at t (42_lagrange R171). -/
def State.tableOut (s : State) (t : Nat) : Nat := s.le16 (t + 2)

/-- ID[j] of the table at t (42_lagrange R171). -/
def State.tableId (s : State) (t j : Nat) : Byte := s.lmemAt (t + 4 + 6 * j)

/-- LEN[j] of the table at t (42_lagrange R171). -/
def State.tableLen (s : State) (t j : Nat) : Nat := s.le16 (t + 6 + 6 * j)

/-- ADR[j] of the table at t (42_lagrange R171). -/
def State.tableAdr (s : State) (t j : Nat) : Nat := s.le16 (t + 8 + 6 * j)

/-- The field sum of f 0, ..., f (n - 1); the empty sum is 0x00 (00_scope R10). -/
def fieldSum : Nat → (Nat → Byte) → Byte
  | 0, _ => 0x00
  | n + 1, f => fieldSum n f ^^^ f n

/-- The field product of f 0, ..., f (n - 1); the empty product is 0x01 (00_scope R10). -/
def fieldProd : Nat → (Nat → Byte) → Byte
  | 0, _ => 0x01
  | n + 1, f => gmul (fieldProd n f) (f n)

/-- x^0 = 0x01 and x^(k+1) = gmul(x^k, x) (41_polynomial R161). -/
def gpow (x : Byte) : Nat → Byte
  | 0 => 0x01
  | k + 1 => gmul (gpow x k) x

/-- The product of all other shares' IDs (42_lagrange R170, R176). -/
def basisNum (id : Nat → Byte) (n j : Nat) : Byte :=
  fieldProd n fun m => if m = j then 0x01 else id m

/-- The product of `(x_j XOR x_m)` over all m ≠ j (42_lagrange R170, R176). -/
def basisDen (id : Nat → Byte) (n j : Nat) : Byte :=
  fieldProd n fun m => if m = j then 0x01 else id j ^^^ id m

/-- B[j], the basis polynomial of share j of n at 0 (42_lagrange R176). -/
def basisAt (id : Nat → Byte) (n j : Nat) : Byte :=
  gmul (basisNum id n j) (ginv (basisDen id n j))

/-- The table's header lies in LMEM, it lists at least one share, and the whole table lies in LMEM: the checks of LAGR
before it reads the descriptors (42_lagrange R172, R173). -/
abbrev State.TableReadable (s : State) (t : Nat) : Prop :=
  t + 4 ≤ 4096 ∧ s.tableCount t ≠ 0 ∧ t + (4 + 6 * s.tableCount t) ≤ 4096

/-- No two of the table's IDs are equal (42_lagrange R174). -/
abbrev State.IdsDistinct (s : State) (t : Nat) : Prop :=
  ∀ m < s.tableCount t, ∀ j < m, s.tableId t j ≠ s.tableId t m

/-- Every length equals LEN[0] (42_lagrange R175). -/
abbrev State.LengthsEqual (s : State) (t : Nat) : Prop :=
  ∀ j < s.tableCount t, s.tableLen t j = s.tableLen t 0

/-- A range of length n at a lies in LMEM, or is empty (20_memory R76). -/
abbrev RangeOk (a n : Nat) : Prop :=
  n = 0 ∨ a + n ≤ 4096

/-- Every check of LAGR passes (42_lagrange R177). -/
abbrev State.LagrReady (s : State) (t : Nat) : Prop :=
  s.TableReadable t ∧ s.IdsDistinct t ∧ s.LengthsEqual t
    ∧ (∀ j < s.tableCount t, RangeOk (s.tableAdr t j) (s.tableLen t 0)) ∧ RangeOk (s.tableOut t) (s.tableLen t 0)

/-- No payload that starts below the output reaches into it, so no payload byte is read after an output byte was written
over it (42_lagrange R178, R182). Disjoint ranges and in-place reconstruction (OUT = ADR[j]) are of this form. -/
abbrev State.NoLateRead (s : State) (t : Nat) : Prop :=
  ∀ j < s.tableCount t, s.tableOut t ≤ s.tableAdr t j ∨ s.tableAdr t j + s.tableLen t 0 ≤ s.tableOut t

/-- The product of a and b as polynomials over GF(2), 15 bits (40_field R132). -/
def carrylessProduct (a b : Byte) : BitVec 16 :=
  (List.range 8).foldl (fun p i => if b.getLsbD i then p ^^^ (a.setWidth 16 <<< i) else p) 0#16

/-- The remainder modulo x^8+x^4+x^3+x+1 by long division from bit 15 down to bit 8 (40_field R132, 00_scope R3). -/
def reduce11B (p : BitVec 16) : Byte :=
  ((List.range 8).foldr (fun i q => if q.getLsbD (8 + i) then q ^^^ (0x11B#16 <<< i) else q) p).setWidth 8

/-- The element registers a command reads (10_state R24). -/
def sourcesOf : Instr → List Reg
  | .fadd _ rs1 rs2 => [rs1, rs2]
  | .fsub _ rs1 rs2 => [rs1, rs2]
  | .fmul _ rs1 rs2 => [rs1, rs2]
  | .finv _ rs1 => [rs1]
  | .fdiv _ rs1 rs2 => [rs1, rs2]
  | .peval _ rs1 rs2 _ => [rs1, rs2]
  | .lagr _ => []
  | .ldi _ _ => []
  | .ld _ _ => []
  | .st rs1 _ => [rs1]
  | .wipe => []

/-- Whether a command may write the element register r (10_state R24). -/
def writesReg (i : Instr) (r : Reg) : Bool :=
  match i with
  | .fadd rd _ _ => r == rd
  | .fsub rd _ _ => r == rd
  | .fmul rd _ _ => r == rd
  | .finv rd _ => r == rd
  | .fdiv rd _ _ => r == rd
  | .peval rd _ _ _ => r == rd
  | .lagr _ => false
  | .ldi rd _ => r == rd
  | .ld rd _ => r == rd
  | .st _ _ => false
  | .wipe => true

/-- Whether a command may write LMEM (70_reset R262: "every command except LAGR, ST and WIPE" writes none). -/
def writesLmem (i : Instr) : Bool :=
  match i with
  | .fadd _ _ _ => false
  | .fsub _ _ _ => false
  | .fmul _ _ _ => false
  | .finv _ _ => false
  | .fdiv _ _ _ => false
  | .peval _ _ _ _ => false
  | .lagr _ => true
  | .ldi _ _ => false
  | .ld _ _ => false
  | .st _ _ => true
  | .wipe => true

/-- The completion of a pending command is what the next step does (20_memory R77, log 3). -/
abbrev State.CompletesNext (s : State) (c : Word) : Prop :=
  s.pend = some c ∧ s.completesNow = true

/-- The next arrival is x, and it takes effect in the next step. -/
abbrev State.ReceivesNext (s : State) (x : Transaction) (rest : List Arrival) : Prop :=
  (s.pend = none ∨ s.completesNow = false) ∧ ∃ late, s.inputs = ⟨x, late⟩ :: rest

end Sys2Proof.Machine
end

