-- ==== Sys2Proof/Certificates/Slice0/Obligations.lean ====
section
/-! DEFINITION. The statements for the provers, one def each, in the order of OBLIGATIONS.json. -/

open Sys2Proof Sys2Proof.Machine

/-- Decoding the word of a command gives it back, every operand at every value (30_encoding R107, R108, R110). Every
command is well-formed (Sys2Proof.Laws.FieldsLegal), so nothing is assumed. -/
def Obligations.DecodeEncodeRoundTrip : Prop :=
  ∀ i : Instr, decode (encode i) = some i

/-- A word that decodes to a command is that command's word: no bit of a legal word is ignored (30_encoding R107, R109). -/
def Obligations.EncodeDecodeRoundTrip : Prop :=
  ∀ (c : Word) (i : Instr), decode c = some i → encode i = c

/-- The words the decoder refuses are exactly those of 30_encoding R109: an unassigned opcode, or a nonzero bit in a
must-be-0 field of R106. -/
def Obligations.DecodeRefusesExactlyIllegalWords : Prop :=
  ∀ c : Word, decode c = none ↔ (fieldsOf c).wellFormed = false

/-- What 30_encoding R111 derives: a word matches exactly one row and decodes to that row's command, or matches none and is illegal. -/
def Obligations.EveryWordMatchesAtMostOneRow : Prop :=
  ∀ c : Word,
    (∃ r ∈ opcodeRows, rowMatches r c = true ∧ (∀ r' ∈ opcodeRows, rowMatches r' c = true → r' = r)
      ∧ decode c = some (buildInstr r.op (fieldsOf c)))
    ∨ ((∀ r ∈ opcodeRows, rowMatches r c = false) ∧ decode c = none)

/-- The words of 95_test_vectors V-E1 to V-E19 decode to the commands listed beside them. -/
def Obligations.SpecWordsDecodeAsListed : Prop :=
  decode 0x00021301 = some (.fadd 3 1 2) ∧ decode 0x00021302 = some (.fsub 3 1 2)
    ∧ decode 0x00021303 = some (.fmul 3 1 2) ∧ decode 0x00003404 = some (.finv 4 3)
    ∧ decode 0x00023605 = some (.fdiv 6 3 2) ∧ decode 0x10021408 = some (.peval 4 1 2 0x100)
    ∧ decode 0x3000000C = some (.lagr 0x300) ∧ decode 0x05700110 = some (.ldi 1 0x57)
    ∧ decode 0x01000411 = some (.ld 4 0x010) ∧ decode 0x01104012 = some (.st 4 0x011)
    ∧ decode 0x0000001F = some .wipe ∧ decode 0x0FF00F10 = some (.ldi 15 0xFF)
    ∧ decode 0xFFF00F11 = some (.ld 15 0xFFF) ∧ decode 0xFFF0F012 = some (.st 15 0xFFF)
    ∧ decode 0xFFFDEF08 = some (.peval 15 14 13 0xFFF) ∧ decode 0xFFF0000C = some (.lagr 0xFFF)
    ∧ decode 0x000FFF05 = some (.fdiv 15 15 15) ∧ decode 0x0000F004 = some (.finv 0 15)
    ∧ decode 0x00000310 = some (.ldi 3 0x00)

/-- The laws of 40_field R142, which the spec marks as derived. -/
def Obligations.FieldAxiomsHold : Prop :=
  ((∀ a b, gadd a b = gadd b a) ∧ (∀ a b c, gadd (gadd a b) c = gadd a (gadd b c)) ∧ (∀ a, gadd a 0x00 = a)
      ∧ (∀ a, gadd a a = 0x00))
    ∧ ((∀ a b, gmul a b = gmul b a) ∧ (∀ a b c, gmul (gmul a b) c = gmul a (gmul b c)) ∧ (∀ a, gmul a 0x01 = a)
      ∧ (∀ a, gmul a 0x00 = 0x00))
    ∧ (∀ a b c, gmul a (gadd b c) = gadd (gmul a b) (gmul a c))
    ∧ (∀ a b, gmul a b = 0x00 → a = 0x00 ∨ b = 0x00)
    ∧ (∀ a, a ≠ 0x00 → gmul a (ginv a) = 0x01 ∧ gpow a 255 = 0x01)

/-- What 40_field R132 derives: the 8-round loop computes the carry-less product reduced modulo 0x11B, on all pairs. -/
def Obligations.GmulIsReducedCarrylessProduct : Prop :=
  ∀ a b : Byte, gmul a b = reduce11B (carrylessProduct a b)

/-- 40_field R133, for nonzero a, where ginv is defined: ginv(a) is a^254, and, what the rule marks as derived, it is the
only byte whose product with a is 0x01. -/
def Obligations.InverseIsPower254AndUnique : Prop :=
  ∀ a, a ≠ 0x00 → ginv a = gpow a 254 ∧ ∀ b, gmul a b = 0x01 ↔ b = ginv a

/-- FADD (40_field R135): its words, and its result, a destination that is also a source getting the result of the old
value. -/
def Obligations.FaddRule : Prop :=
  (∀ rd rs1 rs2 imm12, WordMeans ⟨0x01, rd, rs1, rs2, imm12⟩ (imm12 = 0) (.fadd rd rs1 rs2))
    ∧ ∀ rd rs1 rs2 (s : State), ∃ t, exec (.fadd rd rs1 rs2) s = .next t
      ∧ WroteE s t rd (s.readE rs1 ^^^ s.readE rs2) ∧ SameLmem s t ∧ Succeeded s t

/-- FSUB (40_field R136): its words, its result, and that it answers what FADD answers. -/
def Obligations.FsubRule : Prop :=
  (∀ rd rs1 rs2 imm12, WordMeans ⟨0x02, rd, rs1, rs2, imm12⟩ (imm12 = 0) (.fsub rd rs1 rs2))
    ∧ ∀ rd rs1 rs2 (s : State), exec (.fsub rd rs1 rs2) s = exec (.fadd rd rs1 rs2) s
      ∧ ∃ t, exec (.fsub rd rs1 rs2) s = .next t
        ∧ WroteE s t rd (s.readE rs1 ^^^ s.readE rs2) ∧ SameLmem s t ∧ Succeeded s t

/-- FMUL (40_field R137): its words, its result, and its corner cases. -/
def Obligations.FmulRule : Prop :=
  (∀ rd rs1 rs2 imm12, WordMeans ⟨0x03, rd, rs1, rs2, imm12⟩ (imm12 = 0) (.fmul rd rs1 rs2))
    ∧ (∀ rd rs1 rs2 (s : State), ∃ t, exec (.fmul rd rs1 rs2) s = .next t
      ∧ WroteE s t rd (gmul (s.readE rs1) (s.readE rs2)) ∧ SameLmem s t ∧ Succeeded s t)
    ∧ (∀ a b, gmul a b = gmul b a) ∧ ∀ a, gmul a 0x00 = 0x00 ∧ gmul a 0x01 = a

/-- FINV (40_field R138): its words, its result for a nonzero operand, DIVIDE_BY_ZERO with the number of RS1 for 0x00,
and its corner cases. -/
def Obligations.FinvRule : Prop :=
  (∀ rd rs1 rs2 imm12, WordMeans ⟨0x04, rd, rs1, rs2, imm12⟩ (rs2 = 0 ∧ imm12 = 0) (.finv rd rs1))
    ∧ (∀ rd rs1 (s : State), s.readE rs1 ≠ 0x00 → ∃ t, exec (.finv rd rs1) s = .next t
      ∧ WroteE s t rd (ginv (s.readE rs1)) ∧ SameLmem s t ∧ Succeeded s t)
    ∧ (∀ rd rs1 (s : State), s.readE rs1 = 0x00 → ∃ t, exec (.finv rd rs1) s = .next t
      ∧ Failed s t 0x02 (rs1.setWidth 32))
    ∧ ginv 0x01 = 0x01 ∧ ∀ a, a ≠ 0x00 → ginv a ≠ 0x00 ∧ ginv (ginv a) = a

/-- FDIV (40_field R139): its words, its result for a nonzero divisor, DIVIDE_BY_ZERO with the number of RS2 for a zero
divisor whatever the dividend, and its corner cases. -/
def Obligations.FdivRule : Prop :=
  (∀ rd rs1 rs2 imm12, WordMeans ⟨0x05, rd, rs1, rs2, imm12⟩ (imm12 = 0) (.fdiv rd rs1 rs2))
    ∧ (∀ rd rs1 rs2 (s : State), s.readE rs2 ≠ 0x00 → ∃ t, exec (.fdiv rd rs1 rs2) s = .next t
      ∧ WroteE s t rd (gmul (s.readE rs1) (ginv (s.readE rs2))) ∧ SameLmem s t ∧ Succeeded s t)
    ∧ (∀ rd rs1 rs2 (s : State), s.readE rs2 = 0x00 → ∃ t, exec (.fdiv rd rs1 rs2) s = .next t
      ∧ Failed s t 0x02 (rs2.setWidth 32))
    ∧ ∀ a, gdiv a 0x01 = a ∧ (a ≠ 0x00 → gdiv a a = 0x01 ∧ gdiv 0x00 a = 0x00)

/-- PEVAL (41_polynomial R160): its words, the Horner value of the E[RS2] coefficients at IMM12 (List.foldr takes the
highest coefficient first), and ADDRESS_RANGE with length and start where the coefficients reach past LMEM. -/
def Obligations.PevalHornerRule : Prop :=
  (∀ rd rs1 rs2 imm12, WordMeans ⟨0x08, rd, rs1, rs2, imm12⟩ True (.peval rd rs1 rs2 imm12))
    ∧ (∀ rd rs1 rs2 (addr : Addr) (s : State), RangeOk addr.toNat (s.readE rs2).toNat →
      ∃ t, exec (.peval rd rs1 rs2 addr) s = .next t
        ∧ WroteE s t rd ((List.range (s.readE rs2).toNat).foldr
            (fun i acc => gmul acc (s.readE rs1) ^^^ s.lmemAt (addr.toNat + i)) 0x00)
        ∧ SameLmem s t ∧ Succeeded s t)
    ∧ ∀ rd rs1 rs2 (addr : Addr) (s : State), ¬ RangeOk addr.toNat (s.readE rs2).toNat →
      ∃ t, exec (.peval rd rs1 rs2 addr) s = .next t
        ∧ Failed s t 0x06 (BitVec.ofNat 32 ((s.readE rs2).toNat * 65536 + addr.toNat))

/-- What 41_polynomial R161 derives: the value is the direct sum of coefficient times power of the point. -/
def Obligations.PevalDirectPowers : Prop :=
  ∀ rd rs1 rs2 (addr : Addr) (s : State), RangeOk addr.toNat (s.readE rs2).toNat →
    ∃ t, exec (.peval rd rs1 rs2 addr) s = .next t
      ∧ t.readE rd = fieldSum (s.readE rs2).toNat
          (fun i => gmul (s.lmemAt (addr.toNat + i)) (gpow (s.readE rs1) i))

/-- The corner cases of 41_polynomial R162: no coefficient, the point 0x00, one coefficient, the point 0x01, trailing
zero coefficients (counts n and n' put into the count register), the largest call. Each holds for every RD, one that is
also RS1 or RS2 among them. -/
def Obligations.PevalCornerCases : Prop :=
  (∀ rd rs1 rs2 (addr : Addr) (s : State), s.readE rs2 = 0x00 →
      ∃ t, exec (.peval rd rs1 rs2 addr) s = .next t ∧ t.readE rd = 0x00 ∧ Succeeded s t)
    ∧ (∀ rd rs1 rs2 (addr : Addr) (s : State), RangeOk addr.toNat (s.readE rs2).toNat → s.readE rs2 ≠ 0x00 →
      s.readE rs1 = 0x00 → ∃ t, exec (.peval rd rs1 rs2 addr) s = .next t ∧ t.readE rd = s.lmemAt addr.toNat)
    ∧ (∀ rd rs1 rs2 (addr : Addr) (s : State), s.readE rs2 = 0x01 →
      ∃ t, exec (.peval rd rs1 rs2 addr) s = .next t ∧ t.readE rd = s.lmemAt addr.toNat)
    ∧ (∀ rd rs1 rs2 (addr : Addr) (s : State), RangeOk addr.toNat (s.readE rs2).toNat → s.readE rs1 = 0x01 →
      ∃ t, exec (.peval rd rs1 rs2 addr) s = .next t
        ∧ t.readE rd = fieldSum (s.readE rs2).toNat (fun i => s.lmemAt (addr.toNat + i)))
    ∧ (∀ rd rs1 rs2 (addr : Addr) (s : State) (n n' : Byte), rs1 ≠ rs2 → n.toNat ≤ n'.toNat →
      RangeOk addr.toNat n'.toNat → (∀ i < n'.toNat, n.toNat ≤ i → s.lmemAt (addr.toNat + i) = 0x00) →
      ∃ t t', exec (.peval rd rs1 rs2 addr) (s.writeE rs2 n) = .next t
        ∧ exec (.peval rd rs1 rs2 addr) (s.writeE rs2 n') = .next t' ∧ t.readE rd = t'.readE rd)
    ∧ ∀ rd rs1 rs2 (s : State), s.readE rs2 = 0xFF →
      ∃ t, exec (.peval rd rs1 rs2 3841#12) s = .next t ∧ Succeeded s t

/-- The range checks of LAGR in order (42_lagrange R172): header, table, the first failing payload, output. Each raises
ADDRESS_RANGE with the length in bits 31:16 and the start in bits 15:0. The last clause: where every length is 0 the
payload and output ranges pass, wherever they are said to start. -/
def Obligations.LagrAddressRangeChecks : Prop :=
  (∀ (addr : Addr) (s : State), 4096 < addr.toNat + 4 →
      ∃ t, exec (.lagr addr) s = .next t ∧ Failed s t 0x06 (BitVec.ofNat 32 (4 * 65536 + addr.toNat)))
    ∧ (∀ (addr : Addr) (s : State), addr.toNat + 4 ≤ 4096 → s.tableCount addr.toNat ≠ 0 →
      4096 < addr.toNat + (4 + 6 * s.tableCount addr.toNat) →
      ∃ t, exec (.lagr addr) s = .next t
        ∧ Failed s t 0x06 (BitVec.ofNat 32 ((4 + 6 * s.tableCount addr.toNat) * 65536 + addr.toNat)))
    ∧ (∀ (addr : Addr) (s : State) (j : Nat), s.TableReadable addr.toNat → s.IdsDistinct addr.toNat →
      s.LengthsEqual addr.toNat → j < s.tableCount addr.toNat →
      (∀ k < j, RangeOk (s.tableAdr addr.toNat k) (s.tableLen addr.toNat 0)) →
      ¬ RangeOk (s.tableAdr addr.toNat j) (s.tableLen addr.toNat 0) →
      ∃ t, exec (.lagr addr) s = .next t
        ∧ Failed s t 0x06 (BitVec.ofNat 32 (s.tableLen addr.toNat 0 * 65536 + s.tableAdr addr.toNat j)))
    ∧ (∀ (addr : Addr) (s : State), s.TableReadable addr.toNat → s.IdsDistinct addr.toNat →
      s.LengthsEqual addr.toNat →
      (∀ j < s.tableCount addr.toNat, RangeOk (s.tableAdr addr.toNat j) (s.tableLen addr.toNat 0)) →
      ¬ RangeOk (s.tableOut addr.toNat) (s.tableLen addr.toNat 0) →
      ∃ t, exec (.lagr addr) s = .next t
        ∧ Failed s t 0x06 (BitVec.ofNat 32 (s.tableLen addr.toNat 0 * 65536 + s.tableOut addr.toNat)))
    ∧ ∀ (addr : Addr) (s : State), s.TableReadable addr.toNat → s.IdsDistinct addr.toNat →
      s.LengthsEqual addr.toNat → s.tableLen addr.toNat 0 = 0 →
      ∃ t, exec (.lagr addr) s = .next t ∧ Succeeded s t

/-- 42_lagrange R173: a share count of 0 records EMPTY_SHARE_SET with the detail word 0. -/
def Obligations.LagrEmptyShareSet : Prop :=
  ∀ (addr : Addr) (s : State), addr.toNat + 4 ≤ 4096 → s.tableCount addr.toNat = 0 →
    ∃ t, exec (.lagr addr) s = .next t ∧ Failed s t 0x03 0x00000000

/-- 42_lagrange R174: the first equal pair (j, m), in order of increasing m and then of increasing j, is recorded as
DUPLICATE_SHARE_ID with m in bits 15:8 and j in bits 7:0, whatever the lengths and addresses. -/
def Obligations.LagrDuplicateShareId : Prop :=
  ∀ (addr : Addr) (s : State) (j m : Nat), s.TableReadable addr.toNat → m < s.tableCount addr.toNat → j < m →
    s.tableId addr.toNat j = s.tableId addr.toNat m →
    (∀ m' < s.tableCount addr.toNat, ∀ j' < m', (m' < m ∨ (m' = m ∧ j' < j)) →
      s.tableId addr.toNat j' ≠ s.tableId addr.toNat m') →
    ∃ t, exec (.lagr addr) s = .next t ∧ Failed s t 0x04 (BitVec.ofNat 32 (m * 256 + j))

/-- 42_lagrange R175: with distinct IDs, the smallest j whose length differs from LEN[0] is recorded as
MISMATCHED_SHARE_LENGTH with the detail word j. -/
def Obligations.LagrMismatchedShareLength : Prop :=
  ∀ (addr : Addr) (s : State) (j : Nat), s.TableReadable addr.toNat → s.IdsDistinct addr.toNat →
    j < s.tableCount addr.toNat → s.tableLen addr.toNat j ≠ s.tableLen addr.toNat 0 →
    (∀ k < j, s.tableLen addr.toNat k = s.tableLen addr.toNat 0) →
    ∃ t, exec (.lagr addr) s = .next t ∧ Failed s t 0x05 (BitVec.ofNat 32 j)

/-- LAGR when every check passes (42_lagrange R176, R177, R178), for every overlap: byte i of the output is the field sum
of payload byte times basis coefficient, a payload byte that lies in the output below position i being the byte LAGR
wrote there. The stored bytes are OUT to OUT + L - 1. Every other byte, every E register and the rest stay. -/
def Obligations.LagrWritesInterpolatedBytes : Prop :=
  (∀ rd rs1 rs2 imm12, WordMeans ⟨0x0C, rd, rs1, rs2, imm12⟩ (rd = 0 ∧ rs1 = 0 ∧ rs2 = 0) (.lagr imm12))
    ∧ ∀ (addr : Addr) (s : State), s.LagrReady addr.toNat →
    ∃ t, exec (.lagr addr) s = .next t ∧ SameE s t ∧ Succeeded s t
      ∧ (∀ a, ¬ (s.tableOut addr.toNat ≤ a ∧ a < s.tableOut addr.toNat + s.tableLen addr.toNat 0) →
        t.lmemAt a = s.lmemAt a)
      ∧ ∀ i < s.tableLen addr.toNat 0, t.lmemAt (s.tableOut addr.toNat + i)
        = fieldSum (s.tableCount addr.toNat) fun j =>
          gmul (if s.tableOut addr.toNat ≤ s.tableAdr addr.toNat j + i
                  ∧ s.tableAdr addr.toNat j + i < s.tableOut addr.toNat + i
                then t.lmemAt (s.tableAdr addr.toNat j + i) else s.lmemAt (s.tableAdr addr.toNat j + i))
            (basisAt (s.tableId addr.toNat) (s.tableCount addr.toNat) j)

/-- The reconstruction property, which 42_lagrange R180 derives: where byte i of every payload is the value at the share's ID of one
polynomial of degree at most S - 1 with coefficients p i 0, p i 1, ..., and no payload byte is read after it was
overwritten (R178, R182), output byte i is the constant term. -/
def Obligations.LagrReconstructsConstantTerm : Prop :=
  ∀ (addr : Addr) (s : State) (p : Nat → Nat → Byte), s.LagrReady addr.toNat → s.NoLateRead addr.toNat →
    (∀ i < s.tableLen addr.toNat 0, ∀ j < s.tableCount addr.toNat,
      s.lmemAt (s.tableAdr addr.toNat j + i)
        = fieldSum (s.tableCount addr.toNat) fun k => gmul (p i k) (gpow (s.tableId addr.toNat j) k)) →
    ∃ t, exec (.lagr addr) s = .next t ∧ Succeeded s t
      ∧ ∀ i < s.tableLen addr.toNat 0, t.lmemAt (s.tableOut addr.toNat + i) = p i 0

/-- Corner cases that 42_lagrange R179 derives: one share copies its payload, the empty secret writes nothing, a share with ID 0x00
is not refused and its payload is the output. -/
def Obligations.LagrSpecialShareSets : Prop :=
  (∀ (addr : Addr) (s : State), s.LagrReady addr.toNat → s.NoLateRead addr.toNat → s.tableCount addr.toNat = 1 →
      ∃ t, exec (.lagr addr) s = .next t ∧ Succeeded s t ∧ ∀ i < s.tableLen addr.toNat 0,
        t.lmemAt (s.tableOut addr.toNat + i) = s.lmemAt (s.tableAdr addr.toNat 0 + i))
    ∧ (∀ (addr : Addr) (s : State), s.TableReadable addr.toNat → s.IdsDistinct addr.toNat →
      (∀ j < s.tableCount addr.toNat, s.tableLen addr.toNat j = 0) →
      ∃ t, exec (.lagr addr) s = .next t ∧ Succeeded s t ∧ SameLmem s t ∧ SameE s t)
    ∧ ∀ (addr : Addr) (s : State) (j : Nat), s.LagrReady addr.toNat → s.NoLateRead addr.toNat →
      j < s.tableCount addr.toNat → s.tableId addr.toNat j = 0x00 →
      ∃ t, exec (.lagr addr) s = .next t ∧ Succeeded s t ∧ ∀ i < s.tableLen addr.toNat 0,
        t.lmemAt (s.tableOut addr.toNat + i) = s.lmemAt (s.tableAdr addr.toNat j + i)

/-- What 42_lagrange R181 derives: with distinct IDs every denominator is nonzero, so LAGR never computes ginv(0x00), and it never
records DIVIDE_BY_ZERO. -/
def Obligations.LagrNeverInvertsZero : Prop :=
  (∀ (s : State) (t j : Nat), s.IdsDistinct t → j < s.tableCount t →
      basisDen (s.tableId t) (s.tableCount t) j ≠ 0x00)
    ∧ (∀ (addr : Addr) (s : State), exec (.lagr addr) s ≠ .fault .inverseOfZero)
    ∧ ∀ (addr : Addr) (s t : State), exec (.lagr addr) s = .next t → t.errCode = s.errCode ∨ t.errCode ≠ 0x02

/-- What 42_lagrange R182 derives: output byte i depends on the table and on byte i of each payload alone. Two states that show the
same table and the same payload bytes at position i give the same output byte i, whatever the other bytes are. -/
def Obligations.LagrLanesIndependent : Prop :=
  ∀ (addr : Addr) (s s' t t' : State) (i : Nat),
    s.LagrReady addr.toNat → s.NoLateRead addr.toNat →
    s'.tableCount addr.toNat = s.tableCount addr.toNat → s'.tableOut addr.toNat = s.tableOut addr.toNat →
    (∀ j < s.tableCount addr.toNat, s'.tableId addr.toNat j = s.tableId addr.toNat j
      ∧ s'.tableLen addr.toNat j = s.tableLen addr.toNat j ∧ s'.tableAdr addr.toNat j = s.tableAdr addr.toNat j) →
    i < s.tableLen addr.toNat 0 →
    (∀ j < s.tableCount addr.toNat,
      s'.lmemAt (s.tableAdr addr.toNat j + i) = s.lmemAt (s.tableAdr addr.toNat j + i)) →
    exec (.lagr addr) s = .next t → exec (.lagr addr) s' = .next t' →
    t'.lmemAt (s.tableOut addr.toNat + i) = t.lmemAt (s.tableOut addr.toNat + i)

/-- LDI (43_move_wipe R200): its words, whose RS1, RS2 and bits 31:28 are 0, and its result. -/
def Obligations.LdiRule : Prop :=
  (∀ rd rs1 rs2 imm12, WordMeans ⟨0x10, rd, rs1, rs2, imm12⟩ (rs1 = 0 ∧ rs2 = 0 ∧ imm12.toNat < 256)
      (.ldi rd (imm12.setWidth 8)))
    ∧ ∀ rd imm8 (s : State), ∃ t, exec (.ldi rd imm8) s = .next t
      ∧ WroteE s t rd imm8 ∧ SameLmem s t ∧ Succeeded s t

/-- LD (43_move_wipe R201): its words, and its result, the byte at the address as it is. -/
def Obligations.LdRule : Prop :=
  (∀ rd rs1 rs2 imm12, WordMeans ⟨0x11, rd, rs1, rs2, imm12⟩ (rs1 = 0 ∧ rs2 = 0) (.ld rd imm12))
    ∧ ∀ rd (addr : Addr) (s : State), ∃ t, exec (.ld rd addr) s = .next t
      ∧ WroteE s t rd (s.lmemAt addr.toNat) ∧ SameLmem s t ∧ Succeeded s t

/-- ST (43_move_wipe R202): its words, and its result: exactly the byte at the address changes. -/
def Obligations.StRule : Prop :=
  (∀ rd rs1 rs2 imm12, WordMeans ⟨0x12, rd, rs1, rs2, imm12⟩ (rd = 0 ∧ rs2 = 0) (.st rs1 imm12))
    ∧ ∀ rs1 (addr : Addr) (s : State), ∃ t, exec (.st rs1 addr) s = .next t
      ∧ (∀ a, t.lmemAt a = if a = addr.toNat then s.readE rs1 else s.lmemAt a) ∧ SameE s t ∧ Succeeded s t

/-- WIPE (43_move_wipe R203): its one word, its result, and that a second WIPE succeeds and changes nothing more. -/
def Obligations.WipeRule : Prop :=
  (∀ rd rs1 rs2 imm12, WordMeans ⟨0x1F, rd, rs1, rs2, imm12⟩ (rd = 0 ∧ rs1 = 0 ∧ rs2 = 0 ∧ imm12 = 0) .wipe)
    ∧ ∀ s : State, ∃ t, exec .wipe s = .next t ∧ (∀ r, t.readE r = 0x00) ∧ (∀ a < 4096, t.lmemAt a = 0x00)
      ∧ Succeeded s t ∧ exec .wipe t = .next t

/-- A command writes no element register but those its row names (10_state R24) and LMEM only if it is LAGR, ST or WIPE
(70_reset_and_hazards R262, 41_polynomial R163), and it reads no element register but its sources (R24): with every other register changed to any value it records the same outcome, leaves the
same LMEM, and writes the same values. -/
def Obligations.CommandsReachOnlyTheirRegisters : Prop :=
  (∀ (i : Instr) (s t : State), exec i s = .next t →
      (∀ r, writesReg i r = false → t.readE r = s.readE r) ∧ (writesLmem i = false → SameLmem s t))
    ∧ ∀ (i : Instr) (s t : State) (e' : Vector Byte 16), s.err = false →
      (∀ r ∈ sourcesOf i, { s with e := e' }.readE r = s.readE r) → exec i s = .next t →
      ∃ t', exec i { s with e := e' } = .next t' ∧ t'.lmem = t.lmem ∧ t'.err = t.err ∧ t'.errCode = t.errCode
        ∧ t'.errInfo = t.errInfo
        ∧ (t.err = false → ∀ r, writesReg i r = true → t'.readE r = t.readE r)

/-- 60_exceptions R225 and R227, from the state before acceptance: after a command that records an error, an illegal word
among them, no E register, no LMEM byte and no other state differs but LASTCMD, DONE, ERR, ERRCODE and ERRINFO. BUSY is 0
again, irq is IE, and the word can be read back. -/
def Obligations.FailedCommandWritesNothing : Prop :=
  ∀ (c : Word) (s t : State), s.busy = false → s.err = false → completeWord c (s.accept c) = .next t → t.err = true →
    t = { s with lastCmd := c, done := false, err := true, errCode := t.errCode, errInfo := t.errInfo }
      ∧ t.busy = false ∧ t.irq = s.ie ∧ t.hostRead 0x004 = (.ok, c)

/-- 60_exceptions R221: which command records which code, and that no other code is ever recorded. -/
def Obligations.ErrorCodesByCommand : Prop :=
  ∀ (c : Word) (s t : State), s.err = false → completeWord c s = .next t → t.err = true →
    (decode c = none ∧ t.errCode = 0x01)
    ∨ ((∃ rd rs1, decode c = some (.finv rd rs1)) ∧ t.errCode = 0x02)
    ∨ ((∃ rd rs1 rs2, decode c = some (.fdiv rd rs1 rs2)) ∧ t.errCode = 0x02)
    ∨ ((∃ rd rs1 rs2 addr, decode c = some (.peval rd rs1 rs2 addr)) ∧ t.errCode = 0x06)
    ∨ ((∃ addr, decode c = some (.lagr addr))
      ∧ (t.errCode = 0x03 ∨ t.errCode = 0x04 ∨ t.errCode = 0x05 ∨ t.errCode = 0x06))

/-- 30_encoding R112: an illegal word is accepted like any other, its completion records ILLEGAL_CMD with ERRINFO 0 and
changes no E register and no LMEM byte, and the word stays readable at offset 0x004. -/
def Obligations.IllegalWordRecordsIllegalCmd : Prop :=
  (∀ (c : Word) (s : State), decode c = none → s.busy = false → s.err = false →
      s.hostWrite 0x004 c = (.ok, { s with pend := some c, lastCmd := c, done := false }))
    ∧ ∀ (c : Word) (s : State), decode c = none → s.CompletesNext c → s.lastCmd = c →
      ∃ t, step s = .next t ∧ Failed s t 0x01 0x00000000 ∧ t.hostRead 0x004 = (.ok, c)

/-- When the pending word decodes to a command and its completion is next, the step is exec of that command, with nothing
around it (20_memory R77, 30_encoding R110). -/
def Obligations.StepRunsDecodedCommand : Prop :=
  ∀ (s : State) (c : Word) (i : Instr), s.CompletesNext c → decode c = some i → step s = exec i s

/-- Otherwise the step delivers the next arrival, and with nothing to arrive and PEND empty all state holds its value
(20_memory R78, 60_exceptions R239). A delivered write has the effect of the host write and gives its response (20_memory
R61, R64). While rst is asserted it gives the response alone (70_reset R260, log 7). The lists of arrivals and of answers
are the model's own (log 3, log 4). -/
def Obligations.StepDeliversArrivals : Prop :=
  (∀ (s : State) (x : Transaction) (rest : List Arrival), s.ReceivesNext x rest →
      step s = .next ({ s with inputs := rest }.deliver x))
    ∧ (∀ s : State, s.Settled → step s = .next s)
    ∧ (∀ (s : State) (off : Nat) (d : Word), s.rst = false → s.deliver (.write off d)
      = { (s.hostWrite off d).2 with responses := .write (s.hostWrite off d).1 :: s.responses })
    ∧ ∀ (s : State) (off : Nat) (d : Word), s.rst = true → s.deliver (.write off d)
      = { s with responses := .write (s.hostWrite off d).1 :: s.responses }

/-- The step after withFetchWord is exec of the command the table's word decodes to (log 8). -/
def Obligations.PlacedWordRunsNext : Prop :=
  ∀ (s : State) (nbits w : Nat) (i : Instr), decodeTableWord nbits w = some i →
    step (s.withFetchWord nbits w) = exec i (s.withFetchWord nbits w)

/-- No step ever ends in a fault or a refusal, in any state: the range checks keep every MemRead and MemWrite inside LMEM,
and no denominator of LAGR is 0x00 (00_scope R10, 42_lagrange R181). The two faults are the model's own stops (log 5). -/
def Obligations.EveryStepAnswersNext : Prop :=
  (∀ (i : Instr) (s : State), Goes (exec i s)) ∧ ∀ s : State, Goes (step s)

/-- Every step keeps the invariants that 10_state R41 derives, and with them that LASTCMD holds the pending word (R28) and
that the unit is in the reset state while rst is asserted (70_reset R260). -/
def Obligations.StepKeepsLegalStatus : Prop :=
  ∀ s t : State, s.Legal → step s = .next t → t.Legal

/-- Every step keeps LMEM's canonical form, so no byte outside 0x000..0xFFF is ever held. -/
def Obligations.StepKeepsLmemCanonical : Prop :=
  ∀ s t : State, Memory.wf s.lmem = true → step s = .next t → Memory.wf t.lmem = true

/-- The state after reset meets both invariants. -/
def Obligations.ResetMeetsInvariants : Prop :=
  State.reset.Legal ∧ Memory.wf State.reset.lmem = true

/-- 10_state R42: what a hardware reset leaves. That irq is 0 is "derived from rule R38" there. That an LMEM byte is the
free value LMEM_RESET of the draw in force is the model's choice (log 1). -/
def Obligations.ResetStateIsAsListed : Prop :=
  (∀ r, State.reset.readE r = 0x00) ∧ (∀ a, State.reset.lmemAt a = Config.lmemReset State.reset.lmemDraw a)
    ∧ State.reset.pend = none ∧ State.reset.hostRead 0x004 = (.ok, 0x00000000)
    ∧ State.reset.hostRead 0x008 = (.ok, 0x00000000) ∧ State.reset.hostRead 0x00C = (.ok, 0x00000000)
    ∧ State.reset.hostRead 0x010 = (.ok, 0x00000000) ∧ State.reset.hostRead 0x000 = (.ok, 0x47463801)
    ∧ State.reset.irq = false
    ∧ ∀ w, State.reset.hostWrite 0x004 w = (.ok, { State.reset with pend := some w, lastCmd := w })

/-- 70_reset R260, when rst is asserted (b true) and when it is released (b false), at any moment: registers at their reset
values, a command in flight abandoned, LMEM any bytes. That each of the two is a fresh draw of the free value LMEM_RESET is
the model's choice (log 1). -/
def Obligations.HardwareResetRestoresResetState : Prop :=
  ∀ (s : State) (b : Bool), (s.deliver (.rst b)).rst = b ∧ (s.deliver (.rst b)).pend = none
    ∧ (∀ r, (s.deliver (.rst b)).readE r = 0x00) ∧ (s.deliver (.rst b)).lastCmd = 0x00000000
    ∧ (s.deliver (.rst b)).statusWord = 0x00000000 ∧ (s.deliver (.rst b)).ctrlWord = 0x00000000
    ∧ (s.deliver (.rst b)).errInfo = 0x00000000
    ∧ ∀ a, (s.deliver (.rst b)).lmemAt a = Config.lmemReset (s.lmemDraw + 1) a

/-- 70_reset R260 while rst is asserted: from the reset state, whatever arrives, the unit is in the reset state after the
step, and STATUS and CTRL are 0 and irq is 0 throughout. Two parts are the model's, DEDUCED in log 7: that rst stays
asserted until an arrival releases it, and that a STATUS or CTRL read then answers OK, the response 20_memory R64 gives the
offset in general. -/
def Obligations.AssertedResetHoldsTheUnit : Prop :=
  ∀ s t : State, s.rst = true → s.AtReset → step s = .next t →
    t.AtReset ∧ (t.rst = true ∨ ∃ rest, s.ReceivesNext (.rst false) rest)
      ∧ t.hostRead 0x008 = (.ok, 0x00000000) ∧ t.hostRead 0x00C = (.ok, 0x00000000) ∧ t.irq = false

/-- 70_reset R262: a CTRL write with bit 2 set resets E, PEND and the control registers whatever its other bits. LMEM is
kept, except that an aborted command's bytes each end at their current value or at the value the completed command would
have left. An aborted command that is illegal, would raise an error or writes no LMEM leaves LMEM unchanged. -/
def Obligations.SoftResetRule : Prop :=
  (∀ (s : State) (w : Word), w.getLsbD 2 = true → s.hostWrite 0x00C w = (.ok, s.softReset))
    ∧ (∀ s : State, (∀ r, s.softReset.readE r = 0x00) ∧ s.softReset.pend = none ∧ s.softReset.lastCmd = 0x00000000
      ∧ s.softReset.done = false ∧ s.softReset.err = false ∧ s.softReset.ovr = false ∧ s.softReset.errCode = 0x00
      ∧ s.softReset.errInfo = 0x00000000 ∧ s.softReset.ie = false)
    ∧ (∀ s : State, s.pend = none → SameLmem s s.softReset)
    ∧ (∀ (s : State) (c : Word), s.pend = some c → decode c = none → ∀ a < 4096, s.softReset.lmemAt a = s.lmemAt a)
    ∧ ∀ (s u : State) (c : Word) (i : Instr), s.pend = some c → decode c = some i → exec i s = .next u →
      (∀ a < 4096, s.softReset.lmemAt a = s.lmemAt a ∨ s.softReset.lmemAt a = u.lmemAt a)
      ∧ ((writesLmem i = false ∨ (s.err = false ∧ u.err = true)) → ∀ a < 4096, s.softReset.lmemAt a = s.lmemAt a)

/-- 20_memory R64: a misaligned offset, or one at or above 0x2000, gets ERROR, reads 0 and changes no state; every other
offset gets OK. -/
def Obligations.BadOffsetsAnswerError : Prop :=
  ∀ (s : State) (off : Nat) (d : Word),
    ((off % 4 ≠ 0 ∨ 0x2000 ≤ off) → s.hostRead off = (.error, 0x00000000) ∧ s.hostWrite off d = (.error, s))
    ∧ (¬ (off % 4 ≠ 0 ∨ 0x2000 ≤ off) → (s.hostRead off).1 = .ok ∧ (s.hostWrite off d).1 = .ok)

/-- 20_memory R65: reserved offsets read 0 and ignore writes, and writes to ID, STATUS and ERRINFO are ignored. -/
def Obligations.ReservedAndReadOnlyWords : Prop :=
  (∀ (s : State) (off : Nat) (d : Word), off % 4 = 0 →
      ((0x014 ≤ off ∧ off ≤ 0x03C) ∨ (0x080 ≤ off ∧ off ≤ 0xFFC)) →
      s.hostRead off = (.ok, 0x00000000) ∧ s.hostWrite off d = (.ok, s))
    ∧ ∀ (s : State) (d : Word), s.hostWrite 0x000 d = (.ok, s) ∧ s.hostWrite 0x008 d = (.ok, s)
      ∧ s.hostWrite 0x010 d = (.ok, s)

/-- 20_memory R66: the E window, for every register and both values of BUSY. -/
def Obligations.ElementWindow : Prop :=
  ∀ (s : State) (k : Reg) (d : Word),
    s.hostRead (0x040 + 4 * k.toNat) = (.ok, if s.busy then 0x00000000 else (s.readE k).setWidth 32)
    ∧ ∃ t, s.hostWrite (0x040 + 4 * k.toNat) d = (.ok, t)
      ∧ (s.busy = true → t = { s with ovr := true })
      ∧ (s.busy = false → t = { s with e := t.e } ∧ WroteE s t k (d.setWidth 8))

/-- 20_memory R67: the LMEM window, for every word and both values of BUSY, little-endian. -/
def Obligations.LmemWindow : Prop :=
  ∀ (s : State) (w : Nat) (d : Word), w < 1024 →
    s.hostRead (0x1000 + 4 * w) = (.ok, if s.busy then 0x00000000 else
      s.lmemAt (4 * w + 3) ++ s.lmemAt (4 * w + 2) ++ s.lmemAt (4 * w + 1) ++ s.lmemAt (4 * w))
    ∧ ∃ t, s.hostWrite (0x1000 + 4 * w) d = (.ok, t)
      ∧ (s.busy = true → t = { s with ovr := true })
      ∧ (s.busy = false → t = { s with lmem := t.lmem }
        ∧ ∀ a, t.lmemAt a =
          if a = 4 * w then d.extractLsb' 0 8
          else if a = 4 * w + 1 then d.extractLsb' 8 8
          else if a = 4 * w + 2 then d.extractLsb' 16 8
          else if a = 4 * w + 3 then d.extractLsb' 24 8
          else s.lmemAt a)

/-- 20_memory R71, the last clause the consequence it derives: while BUSY, the E window and the LMEM window read 0. ID, CMD,
STATUS, CTRL and ERRINFO read the same registers in every state, BUSY or not (10_state R30, R31, R32, R35, R37). So no host
read tells two busy states apart that differ only in E and LMEM. -/
def Obligations.BusyHidesElementsAndLmem : Prop :=
  (∀ (s : State) (off : Nat), s.busy = true → off % 4 = 0 →
      ((0x040 ≤ off ∧ off ≤ 0x07C) ∨ (0x1000 ≤ off ∧ off ≤ 0x1FFC)) → s.hostRead off = (.ok, 0x00000000))
    ∧ (∀ s : State, s.hostRead 0x000 = (.ok, 0x47463801) ∧ s.hostRead 0x004 = (.ok, s.lastCmd)
      ∧ s.hostRead 0x008 = (.ok, s.statusWord) ∧ s.hostRead 0x00C = (.ok, s.ctrlWord)
      ∧ s.hostRead 0x010 = (.ok, s.errInfo))
    ∧ ∀ (s : State) (e' : Vector Byte 16) (m : List Host.Cell) (n off : Nat), s.busy = true →
      { s with e := e', lmem := m, lmemDraw := n }.hostRead off = s.hostRead off

/-- 20_memory R72: the writes that are discarded set OVR and change nothing else, with the response OK, and no other
write sets OVR. -/
def Obligations.DiscardedWritesSetOvr : Prop :=
  ∀ (s : State) (off : Nat) (d : Word),
    ((off % 4 = 0 ∧ ((0x040 ≤ off ∧ off ≤ 0x07C) ∨ (0x1000 ≤ off ∧ off ≤ 0x1FFC)) ∧ s.busy = true)
        ∨ (off = 0x004 ∧ (s.busy = true ∨ s.err = true)) →
      s.hostWrite off d = (.ok, { s with ovr := true }))
    ∧ (¬ ((off % 4 = 0 ∧ ((0x040 ≤ off ∧ off ≤ 0x07C) ∨ (0x1000 ≤ off ∧ off ≤ 0x1FFC)) ∧ s.busy = true)
        ∨ (off = 0x004 ∧ (s.busy = true ∨ s.err = true))) →
      (s.hostWrite off d).2.ovr = true → s.ovr = true)

/-- 20_memory R75: acceptance of any word, and the discard while BUSY or ERR. -/
def Obligations.CmdAcceptance : Prop :=
  ∀ (s : State) (w : Word),
    ((s.busy = true ∨ s.err = true) → s.hostWrite 0x004 w = (.ok, { s with ovr := true }))
    ∧ (s.busy = false → s.err = false →
      s.hostWrite 0x004 w = (.ok, { s with pend := some w, lastCmd := w, done := false })
      ∧ (s.hostWrite 0x004 w).2.busy = true)

/-- 10_state R35: a CTRL write, BUSY or not, and a CTRL read. What SRST does is SoftResetRule. -/
def Obligations.CtrlWriteRule : Prop :=
  ∀ (s : State) (w : Word),
    s.hostRead 0x00C = (.ok, if s.ie then 0x00000001 else 0x00000000)
    ∧ (w.getLsbD 2 = true → s.hostWrite 0x00C w = (.ok, s.softReset))
    ∧ (w.getLsbD 2 = false → w.getLsbD 1 = false → s.hostWrite 0x00C w = (.ok, { s with ie := w.getLsbD 0 }))
    ∧ (w.getLsbD 2 = false → w.getLsbD 1 = true → s.hostWrite 0x00C w = (.ok, { s with
        ie := w.getLsbD 0, done := false, err := false, ovr := false, errCode := 0x00, errInfo := 0x00000000 }))

/-- The fields of a STATUS read (10_state R32). -/
def Obligations.StatusWordLayout : Prop :=
  ∀ s : State, ∃ v, s.hostRead 0x008 = (.ok, v)
    ∧ v.getLsbD 0 = s.pend.isSome ∧ v.getLsbD 1 = s.done ∧ v.getLsbD 2 = s.err ∧ v.getLsbD 3 = s.ovr
    ∧ v.extractLsb' 4 4 = 0#4 ∧ v.extractLsb' 8 8 = s.errCode ∧ v.extractLsb' 16 16 = 0#16

/-- The interrupt level (10_state R38, 60_exceptions R231): IE and (DONE or ERR), whatever OVR is. CTRL.CLR clears it, and
so do the acceptance of a command, a soft reset and a hardware reset. -/
def Obligations.InterruptLevel : Prop :=
  (∀ s : State, s.irq = true ↔ s.ie = true ∧ (s.done = true ∨ s.err = true))
    ∧ (∀ (s : State) (b : Bool), { s with ovr := b }.irq = s.irq)
    ∧ (∀ (s : State) (w : Word), w.getLsbD 2 = false → w.getLsbD 1 = true → (s.hostWrite 0x00C w).2.irq = false)
    ∧ (∀ (s : State) (w : Word), s.busy = false → s.err = false → (s.hostWrite 0x004 w).2.irq = false)
    ∧ (∀ (s : State) (w : Word), w.getLsbD 2 = true → (s.hostWrite 0x00C w).2.irq = false)
    ∧ ∀ (s : State) (b : Bool), (s.deliver (.rst b)).irq = false

/-- What 20_memory R73 derives: a host read changes nothing but the list of answers, and the same read again gives the same answer. -/
def Obligations.HostReadsHaveNoEffect : Prop :=
  ∀ (s : State) (off : Nat),
    s.deliver (.read off)
      = { s with responses := .read (s.hostRead off).1 (s.hostRead off).2 :: s.responses }
    ∧ (s.deliver (.read off)).hostRead off = s.hostRead off

/-- 10_state R33: while ERR is 1, a step leaves it 1 unless it is a CTRL write with CLR or SRST set or a hardware reset,
and every CMD write is discarded. -/
def Obligations.ErrStaysUntilCleared : Prop :=
  (∀ s t : State, s.err = true → step s = .next t → t.err = true
      ∨ (∃ b rest, s.ReceivesNext (.rst b) rest)
      ∨ ∃ d rest, s.ReceivesNext (.write 0x00C d) rest ∧ (d.getLsbD 1 = true ∨ d.getLsbD 2 = true))
    ∧ ∀ (s : State) (w : Word), s.err = true → s.hostWrite 0x004 w = (.ok, { s with ovr := true })

/-- What can change an element register or an LMEM byte at all: the completion of a command whose row writes there, a
host write to the E window or to the LMEM window, a soft reset, a hardware reset (10_state R24, 20_memory R62, R66, R67,
70_reset R260, R262). -/
def Obligations.StorageChangesOnlyBy : Prop :=
  ∀ s t : State, step s = .next t →
    ((∃ r, t.readE r ≠ s.readE r) →
      (∃ c i r, s.CompletesNext c ∧ decode c = some i ∧ writesReg i r = true)
      ∨ (∃ b rest, s.ReceivesNext (.rst b) rest)
      ∨ ∃ off d rest, s.ReceivesNext (.write off d) rest
        ∧ ((0x040 ≤ off ∧ off ≤ 0x07C) ∨ (off = 0x00C ∧ d.getLsbD 2 = true)))
    ∧ ((∃ a, t.lmemAt a ≠ s.lmemAt a) →
      (∃ c i, s.CompletesNext c ∧ decode c = some i ∧ writesLmem i = true)
      ∨ (∃ b rest, s.ReceivesNext (.rst b) rest)
      ∨ ∃ off d rest, s.ReceivesNext (.write off d) rest
        ∧ ((0x1000 ≤ off ∧ off ≤ 0x1FFC) ∨ (off = 0x00C ∧ d.getLsbD 2 = true ∧ s.pend ≠ none)))

/-- Every run settles (20_memory R77, 70_reset R269, R270): n arrivals are over, and the last accepted command has
completed, after 2 n + 1 steps, none of which stops. The bound rests on the model's list of arrivals and its form of
fairness (log 3). -/
def Obligations.RunSettles : Prop :=
  ∀ s : State, ∃ t, Sys2Proof.core.run (2 * s.inputs.length + 1) s = .next t ∧ State.Settled t
end

