-- ==== Sys2Proof/Laws/Decode.lean ====
section
/-! SUPPORT. What the decoder does, said once: a word is its fields, and decoding by match and mask is decoding by opcode and must-be-0 fields. -/

namespace Sys2Proof

/-- Reading the fields of an assembled word gives them back. -/
@[simp] theorem fieldsOf_wordOf (f : Fields) : fieldsOf (wordOf f) = f := by
  obtain ⟨op, rd, rs1, rs2, imm⟩ := f
  simp only [fieldsOf, wordOf, Fields.mk.injEq]
  refine ⟨?_, ?_, ?_, ?_, ?_⟩ <;> apply BitVec.eq_of_getLsbD_eq <;> intro i hi <;>
    simp only [BitVec.getLsbD_extractLsb', BitVec.getLsbD_append, hi, decide_true, Bool.true_and] <;>
    split_ifs <;> first | omega | (congr 1; omega)

/-- Assembling the fields of a word gives the word back. -/
@[simp] theorem wordOf_fieldsOf (c : Word) : wordOf (fieldsOf c) = c := by
  simp only [fieldsOf, wordOf]
  apply BitVec.eq_of_getLsbD_eq
  intro i hi
  simp only [BitVec.getLsbD_extractLsb', BitVec.getLsbD_append]
  repeat' split
  all_goals (simp; try omega)
  all_goals (rw [decide_eq_true (by omega), Bool.true_and]; congr 1; omega)

theorem wordOf_inj (f g : Fields) : wordOf f = wordOf g ↔ f = g :=
  ⟨fun h => by rw [← fieldsOf_wordOf f, h, fieldsOf_wordOf], fun h => h ▸ rfl⟩

/-- Masking a word masks each of its fields. -/
theorem wordOf_and (f g : Fields) : wordOf f &&& wordOf g
    = wordOf ⟨f.op &&& g.op, f.rd &&& g.rd, f.rs1 &&& g.rs1, f.rs2 &&& g.rs2, f.imm12 &&& g.imm12⟩ := by
  simp only [wordOf]
  apply BitVec.eq_of_getLsbD_eq
  intro i hi
  simp only [BitVec.getLsbD_append, BitVec.getLsbD_and]
  repeat' split
  all_goals rfl

/-- A word matches a row when each of its fields, masked, is the row's. -/
theorem rowMatches_wordOf (o : Op) (p m : Word) (f : Fields) : rowMatches ⟨o, p, m⟩ (wordOf f) = true
    ↔ f.op &&& (fieldsOf m).op = (fieldsOf p).op ∧ f.rd &&& (fieldsOf m).rd = (fieldsOf p).rd
      ∧ f.rs1 &&& (fieldsOf m).rs1 = (fieldsOf p).rs1 ∧ f.rs2 &&& (fieldsOf m).rs2 = (fieldsOf p).rs2
      ∧ f.imm12 &&& (fieldsOf m).imm12 = (fieldsOf p).imm12 := by
  rw [rowMatches, beq_iff_eq]
  conv_lhs => rw [← wordOf_fieldsOf m, ← wordOf_fieldsOf p, wordOf_and, wordOf_inj]
  rw [Fields.mk.injEq]

/-- When a row matches, by opcode and must-be-0 fields (30_encoding R106). -/
theorem rowMatches_iff (f : Fields) :
    (rowMatches ⟨.fadd, 0x00000001, 0xFFF000FF⟩ (wordOf f) = true ↔ f.op = 0x01 ∧ f.imm12 = 0)
    ∧ (rowMatches ⟨.fsub, 0x00000002, 0xFFF000FF⟩ (wordOf f) = true ↔ f.op = 0x02 ∧ f.imm12 = 0)
    ∧ (rowMatches ⟨.fmul, 0x00000003, 0xFFF000FF⟩ (wordOf f) = true ↔ f.op = 0x03 ∧ f.imm12 = 0)
    ∧ (rowMatches ⟨.finv, 0x00000004, 0xFFFF00FF⟩ (wordOf f) = true ↔ f.op = 0x04 ∧ f.rs2 = 0 ∧ f.imm12 = 0)
    ∧ (rowMatches ⟨.fdiv, 0x00000005, 0xFFF000FF⟩ (wordOf f) = true ↔ f.op = 0x05 ∧ f.imm12 = 0)
    ∧ (rowMatches ⟨.peval, 0x00000008, 0x000000FF⟩ (wordOf f) = true ↔ f.op = 0x08)
    ∧ (rowMatches ⟨.lagr, 0x0000000C, 0x000FFFFF⟩ (wordOf f) = true
      ↔ f.op = 0x0C ∧ f.rd = 0 ∧ f.rs1 = 0 ∧ f.rs2 = 0)
    ∧ (rowMatches ⟨.ldi, 0x00000010, 0xF00FF0FF⟩ (wordOf f) = true
      ↔ f.op = 0x10 ∧ f.rs1 = 0 ∧ f.rs2 = 0 ∧ f.imm12 &&& 0xF00 = 0)
    ∧ (rowMatches ⟨.ld, 0x00000011, 0x000FF0FF⟩ (wordOf f) = true ↔ f.op = 0x11 ∧ f.rs1 = 0 ∧ f.rs2 = 0)
    ∧ (rowMatches ⟨.st, 0x00000012, 0x000F0FFF⟩ (wordOf f) = true ↔ f.op = 0x12 ∧ f.rd = 0 ∧ f.rs2 = 0)
    ∧ (rowMatches ⟨.wipe, 0x0000001F, 0xFFFFFFFF⟩ (wordOf f) = true
      ↔ f.op = 0x1F ∧ f.rd = 0 ∧ f.rs1 = 0 ∧ f.rs2 = 0 ∧ f.imm12 = 0) := by
  have h8 : ∀ x : BitVec 8, x &&& 255#8 = x := fun x => BitVec.and_allOnes
  have h12 : ∀ x : BitVec 12, x &&& 4095#12 = x := fun x => BitVec.and_allOnes
  have h4 : ∀ x : BitVec 4, x &&& 15#4 = x := fun x => BitVec.and_allOnes
  and_intros <;> rw [rowMatches_wordOf] <;>
    simp [fieldsOf, h8, h12, h4]

/-- EVERYTHING THE DECODER CAN DO, by opcode and must-be-0 fields. -/
theorem decode_wordOf (f : Fields) : decode (wordOf f) =
    if f.op = 0x01 ∧ f.imm12 = 0 then some (.fadd f.rd f.rs1 f.rs2)
    else if f.op = 0x02 ∧ f.imm12 = 0 then some (.fsub f.rd f.rs1 f.rs2)
    else if f.op = 0x03 ∧ f.imm12 = 0 then some (.fmul f.rd f.rs1 f.rs2)
    else if f.op = 0x04 ∧ f.rs2 = 0 ∧ f.imm12 = 0 then some (.finv f.rd f.rs1)
    else if f.op = 0x05 ∧ f.imm12 = 0 then some (.fdiv f.rd f.rs1 f.rs2)
    else if f.op = 0x08 then some (.peval f.rd f.rs1 f.rs2 f.imm12)
    else if f.op = 0x0C ∧ f.rd = 0 ∧ f.rs1 = 0 ∧ f.rs2 = 0 then some (.lagr f.imm12)
    else if f.op = 0x10 ∧ f.rs1 = 0 ∧ f.rs2 = 0 ∧ f.imm12 &&& 0xF00 = 0 then some (.ldi f.rd (ldiImm f.imm12))
    else if f.op = 0x11 ∧ f.rs1 = 0 ∧ f.rs2 = 0 then some (.ld f.rd f.imm12)
    else if f.op = 0x12 ∧ f.rd = 0 ∧ f.rs2 = 0 then some (.st f.rs1 f.imm12)
    else if f.op = 0x1F ∧ f.rd = 0 ∧ f.rs1 = 0 ∧ f.rs2 = 0 ∧ f.imm12 = 0 then some .wipe
    else none := by
  obtain ⟨h1, h2, h3, h4, h5, h6, h7, h8, h9, h10, h11⟩ := rowMatches_iff f
  simp only [decode, opcodeRows, List.find?_cons, List.find?_nil]
  split
  · next h => simp [h1.1 h, buildInstr]
  next n1 =>
  rw [if_neg fun h => Bool.false_ne_true (n1.symm.trans (h1.2 h))]
  split
  · next h => simp [h2.1 h, buildInstr]
  next n2 =>
  rw [if_neg fun h => Bool.false_ne_true (n2.symm.trans (h2.2 h))]
  split
  · next h => simp [h3.1 h, buildInstr]
  next n3 =>
  rw [if_neg fun h => Bool.false_ne_true (n3.symm.trans (h3.2 h))]
  split
  · next h => simp [h4.1 h, buildInstr]
  next n4 =>
  rw [if_neg fun h => Bool.false_ne_true (n4.symm.trans (h4.2 h))]
  split
  · next h => simp [h5.1 h, buildInstr]
  next n5 =>
  rw [if_neg fun h => Bool.false_ne_true (n5.symm.trans (h5.2 h))]
  split
  · next h => simp [h6.1 h, buildInstr]
  next n6 =>
  rw [if_neg fun h => Bool.false_ne_true (n6.symm.trans (h6.2 h))]
  split
  · next h => simp [h7.1 h, buildInstr]
  next n7 =>
  rw [if_neg fun h => Bool.false_ne_true (n7.symm.trans (h7.2 h))]
  split
  · next h =>
    rw [if_pos (h8.1 h)]
    simp [buildInstr]
  next n8 =>
  rw [if_neg fun h => Bool.false_ne_true (n8.symm.trans (h8.2 h))]
  split
  · next h => simp [h9.1 h, buildInstr]
  next n9 =>
  rw [if_neg fun h => Bool.false_ne_true (n9.symm.trans (h9.2 h))]
  split
  · next h => simp [h10.1 h, buildInstr]
  next n10 =>
  rw [if_neg fun h => Bool.false_ne_true (n10.symm.trans (h10.2 h))]
  split
  · next h => simp [h11.1 h, buildInstr]
  next n11 =>
  rw [if_neg fun h => Bool.false_ne_true (n11.symm.trans (h11.2 h))]
  rfl

end Sys2Proof
end

