-- ==== Sys2Proof/Laws/Gf8.lean ====
section
/-! SUPPORT. What a round of the multiplication does, and the sums and products of field elements. -/

namespace Sys2Proof.Machine

theorem byte_xor_left_comm (a b c : Byte) : a ^^^ (b ^^^ c) = b ^^^ (a ^^^ c) := by
  rw [← BitVec.xor_assoc, BitVec.xor_comm a b, BitVec.xor_assoc]

/-- The rounds of R131 add to the accumulator what they compute from an empty one. -/
theorem gmulRounds_acc (n : Nat) (p a b : Byte) : gmulRounds n p a b = p ^^^ gmulRounds n 0 a b := by
  induction n generalizing p a b with
  | zero => simp [gmulRounds]
  | succ n ih =>
    rw [gmulRounds, gmulRounds, ih, ih (if b.getLsbD 0 = true then 0 ^^^ a else 0)]
    split <;> simp [BitVec.xor_assoc]

/-- One round of R131, the accumulator set apart. -/
theorem gmulRounds_succ (n : Nat) (a b : Byte) :
    gmulRounds (n + 1) 0 a b = (if b.getLsbD 0 then a else 0) ^^^ gmulRounds n 0 (gdouble a) (b >>> 1) := by
  rw [gmulRounds, gmulRounds_acc]
  simp

/-- The running product's step is linear. -/
theorem gdouble_xor (a b : Byte) : gdouble (a ^^^ b) = gdouble a ^^^ gdouble b := by
  have h : ∀ x : Byte, gdouble x = (x <<< 1) ^^^ (if x.getLsbD 7 then 0x1B else 0) := by
    intro x
    rw [gdouble]
    split <;> simp
  simp only [h, BitVec.shiftLeft_xor_distrib, BitVec.getLsbD_xor]
  cases a.getLsbD 7 <;> cases b.getLsbD 7 <;> simp [BitVec.xor_assoc, BitVec.xor_comm]
  exact byte_xor_left_comm _ _ _

/-- The rounds are linear in the running product. -/
theorem gmulRounds_xor (n : Nat) (a a' b : Byte) :
    gmulRounds n 0 (a ^^^ a') b = gmulRounds n 0 a b ^^^ gmulRounds n 0 a' b := by
  induction n generalizing a a' b with
  | zero => simp [gmulRounds]
  | succ n ih =>
    simp only [gmulRounds_succ, gdouble_xor, ih]
    split
    · simp only [BitVec.xor_assoc]
      rw [byte_xor_left_comm a' _ _]
    · simp

theorem fieldSum_congr {n : Nat} {f g : Nat → Byte} (h : ∀ k < n, f k = g k) : fieldSum n f = fieldSum n g := by
  induction n with
  | zero => rfl
  | succ n ih => rw [fieldSum, fieldSum, ih fun k hk => h k (by omega), h n (by omega)]

theorem fieldProd_congr {n : Nat} {f g : Nat → Byte} (h : ∀ k < n, f k = g k) : fieldProd n f = fieldProd n g := by
  induction n with
  | zero => rfl
  | succ n ih => rw [fieldProd, fieldProd, ih fun k hk => h k (by omega), h n (by omega)]

/-- A field sum as a fold over the indices in increasing order. -/
theorem fieldSum_eq_foldl (n : Nat) (f : Nat → Byte) :
    fieldSum n f = (List.range n).foldl (fun acc k => acc ^^^ f k) 0 := by
  induction n with
  | zero => rfl
  | succ n ih => simp [fieldSum, List.range_succ, ih]

/-- 0x01 on the right leaves a factor as it is. -/
theorem gmul_one (a : Byte) : gmul a 0x01 = a := by
  have h : ∀ n (x : Byte), gmulRounds n 0 x 0 = 0 := by
    intro n
    induction n with
    | zero => intro x; rfl
    | succ n ih => intro x; rw [gmulRounds_succ]; simpa using ih (gdouble x)
  rw [gmul, gmulRounds_succ]
  simpa using h 7 (gdouble a)

end Sys2Proof.Machine
end

