-- ==== Sys2Proof/Laws/State.lean ====
section
/-! SUPPORT. Beside State: for each update of the state, what it leaves in each field, true by rfl. -/

namespace Sys2Proof.Machine

@[simp] theorem State.putByte_e (s : State) (a : Nat) (v : Byte) : (s.putByte a v).e = s.e := rfl
@[simp] theorem State.putByte_lmem (s : State) (a : Nat) (v : Byte) : (s.putByte a v).lmem = lmemPut s.lmem a v := rfl
@[simp] theorem State.putByte_pend (s : State) (a : Nat) (v : Byte) : (s.putByte a v).pend = s.pend := rfl
@[simp] theorem State.putByte_lastCmd (s : State) (a : Nat) (v : Byte) : (s.putByte a v).lastCmd = s.lastCmd := rfl
@[simp] theorem State.putByte_done (s : State) (a : Nat) (v : Byte) : (s.putByte a v).done = s.done := rfl
@[simp] theorem State.putByte_err (s : State) (a : Nat) (v : Byte) : (s.putByte a v).err = s.err := rfl
@[simp] theorem State.putByte_ovr (s : State) (a : Nat) (v : Byte) : (s.putByte a v).ovr = s.ovr := rfl
@[simp] theorem State.putByte_errCode (s : State) (a : Nat) (v : Byte) : (s.putByte a v).errCode = s.errCode := rfl
@[simp] theorem State.putByte_errInfo (s : State) (a : Nat) (v : Byte) : (s.putByte a v).errInfo = s.errInfo := rfl
@[simp] theorem State.putByte_ie (s : State) (a : Nat) (v : Byte) : (s.putByte a v).ie = s.ie := rfl
@[simp] theorem State.putByte_rst (s : State) (a : Nat) (v : Byte) : (s.putByte a v).rst = s.rst := rfl
@[simp] theorem State.putByte_inputs (s : State) (a : Nat) (v : Byte) : (s.putByte a v).inputs = s.inputs := rfl
@[simp] theorem State.putByte_responses (s : State) (a : Nat) (v : Byte) : (s.putByte a v).responses = s.responses := rfl
@[simp] theorem State.putByte_lmemDraw (s : State) (a : Nat) (v : Byte) : (s.putByte a v).lmemDraw = s.lmemDraw := rfl
@[simp] theorem State.putByte_abortDraw (s : State) (a : Nat) (v : Byte) : (s.putByte a v).abortDraw = s.abortDraw := rfl

@[simp] theorem State.writeE_e (s : State) (r : Reg) (v : Byte) : (s.writeE r v).e = s.e.set r.toNat v (by have := r.isLt; omega) := rfl
@[simp] theorem State.writeE_lmem (s : State) (r : Reg) (v : Byte) : (s.writeE r v).lmem = s.lmem := rfl
@[simp] theorem State.writeE_pend (s : State) (r : Reg) (v : Byte) : (s.writeE r v).pend = s.pend := rfl
@[simp] theorem State.writeE_lastCmd (s : State) (r : Reg) (v : Byte) : (s.writeE r v).lastCmd = s.lastCmd := rfl
@[simp] theorem State.writeE_done (s : State) (r : Reg) (v : Byte) : (s.writeE r v).done = s.done := rfl
@[simp] theorem State.writeE_err (s : State) (r : Reg) (v : Byte) : (s.writeE r v).err = s.err := rfl
@[simp] theorem State.writeE_ovr (s : State) (r : Reg) (v : Byte) : (s.writeE r v).ovr = s.ovr := rfl
@[simp] theorem State.writeE_errCode (s : State) (r : Reg) (v : Byte) : (s.writeE r v).errCode = s.errCode := rfl
@[simp] theorem State.writeE_errInfo (s : State) (r : Reg) (v : Byte) : (s.writeE r v).errInfo = s.errInfo := rfl
@[simp] theorem State.writeE_ie (s : State) (r : Reg) (v : Byte) : (s.writeE r v).ie = s.ie := rfl
@[simp] theorem State.writeE_rst (s : State) (r : Reg) (v : Byte) : (s.writeE r v).rst = s.rst := rfl
@[simp] theorem State.writeE_inputs (s : State) (r : Reg) (v : Byte) : (s.writeE r v).inputs = s.inputs := rfl
@[simp] theorem State.writeE_responses (s : State) (r : Reg) (v : Byte) : (s.writeE r v).responses = s.responses := rfl
@[simp] theorem State.writeE_lmemDraw (s : State) (r : Reg) (v : Byte) : (s.writeE r v).lmemDraw = s.lmemDraw := rfl
@[simp] theorem State.writeE_abortDraw (s : State) (r : Reg) (v : Byte) : (s.writeE r v).abortDraw = s.abortDraw := rfl

@[simp] theorem State.zeroAll_e (s : State) : s.zeroAll.e = Vector.replicate 16 0 := rfl
@[simp] theorem State.zeroAll_lmem (s : State) : s.zeroAll.lmem = zeroCells 0 Config.lmemSize := rfl
@[simp] theorem State.zeroAll_pend (s : State) : s.zeroAll.pend = s.pend := rfl
@[simp] theorem State.zeroAll_lastCmd (s : State) : s.zeroAll.lastCmd = s.lastCmd := rfl
@[simp] theorem State.zeroAll_done (s : State) : s.zeroAll.done = s.done := rfl
@[simp] theorem State.zeroAll_err (s : State) : s.zeroAll.err = s.err := rfl
@[simp] theorem State.zeroAll_ovr (s : State) : s.zeroAll.ovr = s.ovr := rfl
@[simp] theorem State.zeroAll_errCode (s : State) : s.zeroAll.errCode = s.errCode := rfl
@[simp] theorem State.zeroAll_errInfo (s : State) : s.zeroAll.errInfo = s.errInfo := rfl
@[simp] theorem State.zeroAll_ie (s : State) : s.zeroAll.ie = s.ie := rfl
@[simp] theorem State.zeroAll_rst (s : State) : s.zeroAll.rst = s.rst := rfl
@[simp] theorem State.zeroAll_inputs (s : State) : s.zeroAll.inputs = s.inputs := rfl
@[simp] theorem State.zeroAll_responses (s : State) : s.zeroAll.responses = s.responses := rfl
@[simp] theorem State.zeroAll_lmemDraw (s : State) : s.zeroAll.lmemDraw = s.lmemDraw := rfl
@[simp] theorem State.zeroAll_abortDraw (s : State) : s.zeroAll.abortDraw = s.abortDraw := rfl

@[simp] theorem State.recordError_e (s : State) (c : ErrorCode) (w : Word) : (s.recordError c w).e = s.e := rfl
@[simp] theorem State.recordError_lmem (s : State) (c : ErrorCode) (w : Word) : (s.recordError c w).lmem = s.lmem := rfl
@[simp] theorem State.recordError_pend (s : State) (c : ErrorCode) (w : Word) : (s.recordError c w).pend = none := rfl
@[simp] theorem State.recordError_lastCmd (s : State) (c : ErrorCode) (w : Word) : (s.recordError c w).lastCmd = s.lastCmd := rfl
@[simp] theorem State.recordError_done (s : State) (c : ErrorCode) (w : Word) : (s.recordError c w).done = s.done := rfl
@[simp] theorem State.recordError_err (s : State) (c : ErrorCode) (w : Word) : (s.recordError c w).err = true := rfl
@[simp] theorem State.recordError_ovr (s : State) (c : ErrorCode) (w : Word) : (s.recordError c w).ovr = s.ovr := rfl
@[simp] theorem State.recordError_errCode (s : State) (c : ErrorCode) (w : Word) : (s.recordError c w).errCode = errorNumber c := rfl
@[simp] theorem State.recordError_errInfo (s : State) (c : ErrorCode) (w : Word) : (s.recordError c w).errInfo = w := rfl
@[simp] theorem State.recordError_ie (s : State) (c : ErrorCode) (w : Word) : (s.recordError c w).ie = s.ie := rfl
@[simp] theorem State.recordError_rst (s : State) (c : ErrorCode) (w : Word) : (s.recordError c w).rst = s.rst := rfl
@[simp] theorem State.recordError_inputs (s : State) (c : ErrorCode) (w : Word) : (s.recordError c w).inputs = s.inputs := rfl
@[simp] theorem State.recordError_responses (s : State) (c : ErrorCode) (w : Word) : (s.recordError c w).responses = s.responses := rfl
@[simp] theorem State.recordError_lmemDraw (s : State) (c : ErrorCode) (w : Word) : (s.recordError c w).lmemDraw = s.lmemDraw := rfl
@[simp] theorem State.recordError_abortDraw (s : State) (c : ErrorCode) (w : Word) : (s.recordError c w).abortDraw = s.abortDraw := rfl

@[simp] theorem State.clearStatus_e (s : State) : s.clearStatus.e = s.e := rfl
@[simp] theorem State.clearStatus_lmem (s : State) : s.clearStatus.lmem = s.lmem := rfl
@[simp] theorem State.clearStatus_pend (s : State) : s.clearStatus.pend = s.pend := rfl
@[simp] theorem State.clearStatus_lastCmd (s : State) : s.clearStatus.lastCmd = s.lastCmd := rfl
@[simp] theorem State.clearStatus_done (s : State) : s.clearStatus.done = false := rfl
@[simp] theorem State.clearStatus_err (s : State) : s.clearStatus.err = false := rfl
@[simp] theorem State.clearStatus_ovr (s : State) : s.clearStatus.ovr = false := rfl
@[simp] theorem State.clearStatus_errCode (s : State) : s.clearStatus.errCode = 0 := rfl
@[simp] theorem State.clearStatus_errInfo (s : State) : s.clearStatus.errInfo = 0 := rfl
@[simp] theorem State.clearStatus_ie (s : State) : s.clearStatus.ie = s.ie := rfl
@[simp] theorem State.clearStatus_rst (s : State) : s.clearStatus.rst = s.rst := rfl
@[simp] theorem State.clearStatus_inputs (s : State) : s.clearStatus.inputs = s.inputs := rfl
@[simp] theorem State.clearStatus_responses (s : State) : s.clearStatus.responses = s.responses := rfl
@[simp] theorem State.clearStatus_lmemDraw (s : State) : s.clearStatus.lmemDraw = s.lmemDraw := rfl
@[simp] theorem State.clearStatus_abortDraw (s : State) : s.clearStatus.abortDraw = s.abortDraw := rfl

@[simp] theorem State.recordDone_e (s : State) : s.recordDone.e = s.e := rfl
@[simp] theorem State.recordDone_lmem (s : State) : s.recordDone.lmem = s.lmem := rfl
@[simp] theorem State.recordDone_pend (s : State) : s.recordDone.pend = none := rfl
@[simp] theorem State.recordDone_lastCmd (s : State) : s.recordDone.lastCmd = s.lastCmd := rfl
@[simp] theorem State.recordDone_done (s : State) : s.recordDone.done = true := rfl
@[simp] theorem State.recordDone_err (s : State) : s.recordDone.err = s.err := rfl
@[simp] theorem State.recordDone_ovr (s : State) : s.recordDone.ovr = s.ovr := rfl
@[simp] theorem State.recordDone_errCode (s : State) : s.recordDone.errCode = s.errCode := rfl
@[simp] theorem State.recordDone_errInfo (s : State) : s.recordDone.errInfo = s.errInfo := rfl
@[simp] theorem State.recordDone_ie (s : State) : s.recordDone.ie = s.ie := rfl
@[simp] theorem State.recordDone_rst (s : State) : s.recordDone.rst = s.rst := rfl
@[simp] theorem State.recordDone_inputs (s : State) : s.recordDone.inputs = s.inputs := rfl
@[simp] theorem State.recordDone_responses (s : State) : s.recordDone.responses = s.responses := rfl
@[simp] theorem State.recordDone_lmemDraw (s : State) : s.recordDone.lmemDraw = s.lmemDraw := rfl
@[simp] theorem State.recordDone_abortDraw (s : State) : s.recordDone.abortDraw = s.abortDraw := rfl

@[simp] theorem State.discard_e (s : State) : s.discard.e = s.e := rfl
@[simp] theorem State.discard_lmem (s : State) : s.discard.lmem = s.lmem := rfl
@[simp] theorem State.discard_pend (s : State) : s.discard.pend = s.pend := rfl
@[simp] theorem State.discard_lastCmd (s : State) : s.discard.lastCmd = s.lastCmd := rfl
@[simp] theorem State.discard_done (s : State) : s.discard.done = s.done := rfl
@[simp] theorem State.discard_err (s : State) : s.discard.err = s.err := rfl
@[simp] theorem State.discard_ovr (s : State) : s.discard.ovr = true := rfl
@[simp] theorem State.discard_errCode (s : State) : s.discard.errCode = s.errCode := rfl
@[simp] theorem State.discard_errInfo (s : State) : s.discard.errInfo = s.errInfo := rfl
@[simp] theorem State.discard_ie (s : State) : s.discard.ie = s.ie := rfl
@[simp] theorem State.discard_rst (s : State) : s.discard.rst = s.rst := rfl
@[simp] theorem State.discard_inputs (s : State) : s.discard.inputs = s.inputs := rfl
@[simp] theorem State.discard_responses (s : State) : s.discard.responses = s.responses := rfl
@[simp] theorem State.discard_lmemDraw (s : State) : s.discard.lmemDraw = s.lmemDraw := rfl
@[simp] theorem State.discard_abortDraw (s : State) : s.discard.abortDraw = s.abortDraw := rfl

@[simp] theorem State.accept_e (s : State) (w : Word) : (s.accept w).e = s.e := rfl
@[simp] theorem State.accept_lmem (s : State) (w : Word) : (s.accept w).lmem = s.lmem := rfl
@[simp] theorem State.accept_pend (s : State) (w : Word) : (s.accept w).pend = some w := rfl
@[simp] theorem State.accept_lastCmd (s : State) (w : Word) : (s.accept w).lastCmd = w := rfl
@[simp] theorem State.accept_done (s : State) (w : Word) : (s.accept w).done = false := rfl
@[simp] theorem State.accept_err (s : State) (w : Word) : (s.accept w).err = s.err := rfl
@[simp] theorem State.accept_ovr (s : State) (w : Word) : (s.accept w).ovr = s.ovr := rfl
@[simp] theorem State.accept_errCode (s : State) (w : Word) : (s.accept w).errCode = s.errCode := rfl
@[simp] theorem State.accept_errInfo (s : State) (w : Word) : (s.accept w).errInfo = s.errInfo := rfl
@[simp] theorem State.accept_ie (s : State) (w : Word) : (s.accept w).ie = s.ie := rfl
@[simp] theorem State.accept_rst (s : State) (w : Word) : (s.accept w).rst = s.rst := rfl
@[simp] theorem State.accept_inputs (s : State) (w : Word) : (s.accept w).inputs = s.inputs := rfl
@[simp] theorem State.accept_responses (s : State) (w : Word) : (s.accept w).responses = s.responses := rfl
@[simp] theorem State.accept_lmemDraw (s : State) (w : Word) : (s.accept w).lmemDraw = s.lmemDraw := rfl
@[simp] theorem State.accept_abortDraw (s : State) (w : Word) : (s.accept w).abortDraw = s.abortDraw := rfl

@[simp] theorem State.resetRegisters_e (s : State) : s.resetRegisters.e = Vector.replicate 16 0 := rfl
@[simp] theorem State.resetRegisters_lmem (s : State) : s.resetRegisters.lmem = s.lmem := rfl
@[simp] theorem State.resetRegisters_pend (s : State) : s.resetRegisters.pend = none := rfl
@[simp] theorem State.resetRegisters_lastCmd (s : State) : s.resetRegisters.lastCmd = 0 := rfl
@[simp] theorem State.resetRegisters_done (s : State) : s.resetRegisters.done = false := rfl
@[simp] theorem State.resetRegisters_err (s : State) : s.resetRegisters.err = false := rfl
@[simp] theorem State.resetRegisters_ovr (s : State) : s.resetRegisters.ovr = false := rfl
@[simp] theorem State.resetRegisters_errCode (s : State) : s.resetRegisters.errCode = 0 := rfl
@[simp] theorem State.resetRegisters_errInfo (s : State) : s.resetRegisters.errInfo = 0 := rfl
@[simp] theorem State.resetRegisters_ie (s : State) : s.resetRegisters.ie = false := rfl
@[simp] theorem State.resetRegisters_rst (s : State) : s.resetRegisters.rst = s.rst := rfl
@[simp] theorem State.resetRegisters_inputs (s : State) : s.resetRegisters.inputs = s.inputs := rfl
@[simp] theorem State.resetRegisters_responses (s : State) : s.resetRegisters.responses = s.responses := rfl
@[simp] theorem State.resetRegisters_lmemDraw (s : State) : s.resetRegisters.lmemDraw = s.lmemDraw := rfl
@[simp] theorem State.resetRegisters_abortDraw (s : State) : s.resetRegisters.abortDraw = s.abortDraw := rfl

@[simp] theorem State.hardReset_e (s : State) (b : Bool) : (s.hardReset b).e = Vector.replicate 16 0 := rfl
@[simp] theorem State.hardReset_lmem (s : State) (b : Bool) : (s.hardReset b).lmem = [] := rfl
@[simp] theorem State.hardReset_pend (s : State) (b : Bool) : (s.hardReset b).pend = none := rfl
@[simp] theorem State.hardReset_lastCmd (s : State) (b : Bool) : (s.hardReset b).lastCmd = 0 := rfl
@[simp] theorem State.hardReset_done (s : State) (b : Bool) : (s.hardReset b).done = false := rfl
@[simp] theorem State.hardReset_err (s : State) (b : Bool) : (s.hardReset b).err = false := rfl
@[simp] theorem State.hardReset_ovr (s : State) (b : Bool) : (s.hardReset b).ovr = false := rfl
@[simp] theorem State.hardReset_errCode (s : State) (b : Bool) : (s.hardReset b).errCode = 0 := rfl
@[simp] theorem State.hardReset_errInfo (s : State) (b : Bool) : (s.hardReset b).errInfo = 0 := rfl
@[simp] theorem State.hardReset_ie (s : State) (b : Bool) : (s.hardReset b).ie = false := rfl
@[simp] theorem State.hardReset_rst (s : State) (b : Bool) : (s.hardReset b).rst = b := rfl
@[simp] theorem State.hardReset_inputs (s : State) (b : Bool) : (s.hardReset b).inputs = s.inputs := rfl
@[simp] theorem State.hardReset_responses (s : State) (b : Bool) : (s.hardReset b).responses = s.responses := rfl
@[simp] theorem State.hardReset_lmemDraw (s : State) (b : Bool) : (s.hardReset b).lmemDraw = s.lmemDraw + 1 := rfl
@[simp] theorem State.hardReset_abortDraw (s : State) (b : Bool) : (s.hardReset b).abortDraw = s.abortDraw := rfl

@[simp] theorem State.answer_e (s : State) (r : Response) : (s.answer r).e = s.e := rfl
@[simp] theorem State.answer_lmem (s : State) (r : Response) : (s.answer r).lmem = s.lmem := rfl
@[simp] theorem State.answer_pend (s : State) (r : Response) : (s.answer r).pend = s.pend := rfl
@[simp] theorem State.answer_lastCmd (s : State) (r : Response) : (s.answer r).lastCmd = s.lastCmd := rfl
@[simp] theorem State.answer_done (s : State) (r : Response) : (s.answer r).done = s.done := rfl
@[simp] theorem State.answer_err (s : State) (r : Response) : (s.answer r).err = s.err := rfl
@[simp] theorem State.answer_ovr (s : State) (r : Response) : (s.answer r).ovr = s.ovr := rfl
@[simp] theorem State.answer_errCode (s : State) (r : Response) : (s.answer r).errCode = s.errCode := rfl
@[simp] theorem State.answer_errInfo (s : State) (r : Response) : (s.answer r).errInfo = s.errInfo := rfl
@[simp] theorem State.answer_ie (s : State) (r : Response) : (s.answer r).ie = s.ie := rfl
@[simp] theorem State.answer_rst (s : State) (r : Response) : (s.answer r).rst = s.rst := rfl
@[simp] theorem State.answer_inputs (s : State) (r : Response) : (s.answer r).inputs = s.inputs := rfl
@[simp] theorem State.answer_responses (s : State) (r : Response) : (s.answer r).responses = r :: s.responses := rfl
@[simp] theorem State.answer_lmemDraw (s : State) (r : Response) : (s.answer r).lmemDraw = s.lmemDraw := rfl
@[simp] theorem State.answer_abortDraw (s : State) (r : Response) : (s.answer r).abortDraw = s.abortDraw := rfl

end Sys2Proof.Machine
end

