-- ==== Sys2Proof/Laws/Lmem.lean ====
section
/-! SUPPORT. LMEM as a list of cells: read after write, the canonical form is kept by every operation, and canonical lists that read the same are equal. -/

namespace Sys2Proof.Machine

/-- A write is read back at its own address and leaves every other address as it was. -/
theorem lmemFind_put (m : List Host.Cell) (a b : Nat) (v : Byte) :
    lmemFind (lmemPut m a v) b = if b = a then some v else lmemFind m b := by
  induction m with
  | nil => simp [lmemPut, lmemFind]
  | cons c rest ih =>
    obtain ⟨x, w⟩ := c
    simp only [lmemPut]
    split_ifs with h1 h2 h3 <;> simp only [lmemFind, ih] <;> split_ifs <;> first | rfl | omega

@[simp] theorem lmemFind_put_same (m : List Host.Cell) (a : Nat) (v : Byte) :
    lmemFind (lmemPut m a v) a = some v := by
  simp [lmemFind_put]

/-- Every address of the list is at least lo. -/
def lmemFrom (lo : Nat) (m : List Host.Cell) : Prop :=
  ∀ c ∈ m, lo ≤ c.1

/-- Rising means: every later address is above the first, and the rest rises. -/
theorem lmemRising_cons (a : Nat) (v : Byte) (m : List Host.Cell) :
    lmemRising ((a, v) :: m) = true ↔ lmemFrom (a + 1) m ∧ lmemRising m = true := by
  induction m generalizing a v with
  | nil => simp [lmemRising, lmemFrom]
  | cons c rest ih =>
    obtain ⟨b, w⟩ := c
    rw [lmemRising, Bool.and_eq_true, decide_eq_true_eq]
    constructor
    · rintro ⟨hab, hr⟩
      refine ⟨fun x hx => ?_, hr⟩
      rcases List.mem_cons.1 hx with rfl | hx
      · exact hab
      · have := ((ih b w).1 hr).1 x hx
        omega
    · rintro ⟨hf, hr⟩
      exact ⟨hf (b, w) (List.mem_cons_self ..), hr⟩

theorem memory_wf_iff (m : List Host.Cell) :
    Memory.wf m = true ↔ lmemRising m = true ∧ ∀ c ∈ m, c.1 < 4096 := by
  simp only [Memory.wf, Bool.and_eq_true, List.all_eq_true, decide_eq_true_eq]
  rfl

theorem lmemFrom_put {lo : Nat} {m : List Host.Cell} {a : Nat} {v : Byte} (hm : lmemFrom lo m) (ha : lo ≤ a) :
    lmemFrom lo (lmemPut m a v) := by
  induction m with
  | nil => simpa [lmemPut, lmemFrom] using ha
  | cons c rest ih =>
    obtain ⟨b, w⟩ := c
    have hrest : lmemFrom lo rest := fun x hx => hm x (List.mem_cons_of_mem _ hx)
    have hb : lo ≤ b := hm (b, w) (List.mem_cons_self ..)
    simp only [lmemPut]
    split_ifs
    · intro x hx
      rcases List.mem_cons.1 hx with rfl | hx
      · exact ha
      · exact hm x hx
    · intro x hx
      rcases List.mem_cons.1 hx with rfl | hx
      · exact ha
      · exact hrest x hx
    · intro x hx
      rcases List.mem_cons.1 hx with rfl | hx
      · exact hb
      · exact ih hrest x hx

theorem lmemRising_put {m : List Host.Cell} {a : Nat} {v : Byte} (hm : lmemRising m = true) :
    lmemRising (lmemPut m a v) = true := by
  induction m with
  | nil => rfl
  | cons c rest ih =>
    obtain ⟨b, w⟩ := c
    obtain ⟨hf, hr⟩ := (lmemRising_cons b w rest).1 hm
    simp only [lmemPut]
    split_ifs with h1 h2
    · refine (lmemRising_cons a v _).2 ⟨fun x hx => ?_, hm⟩
      rcases List.mem_cons.1 hx with rfl | hx
      · exact h1
      · have := hf x hx
        omega
    · subst h2
      exact (lmemRising_cons a v rest).2 ⟨hf, hr⟩
    · exact (lmemRising_cons b w _).2 ⟨lmemFrom_put hf (by omega), ih hr⟩

/-- A write inside LMEM keeps the canonical form. -/
theorem memory_wf_put {m : List Host.Cell} {a : Nat} {v : Byte} (hm : Memory.wf m = true) (ha : a < 4096) :
    Memory.wf (lmemPut m a v) = true := by
  rw [memory_wf_iff] at hm ⊢
  refine ⟨lmemRising_put hm.1, ?_⟩
  have key : ∀ l : List Host.Cell, (∀ c ∈ l, c.1 < 4096) → ∀ c ∈ lmemPut l a v, c.1 < 4096 := by
    intro l
    induction l with
    | nil => simpa [lmemPut] using ha
    | cons c rest ih =>
      obtain ⟨b, w⟩ := c
      intro h
      simp only [List.mem_cons, forall_eq_or_imp] at h
      simp only [lmemPut]
      split_ifs <;> simp only [List.mem_cons, forall_eq_or_imp]
      · exact ⟨ha, h.1, h.2⟩
      · exact ⟨ha, h.2⟩
      · exact ⟨h.1, ih h.2⟩
  exact key m hm.2

/-- Every cell of zeroCells lies in its range. -/
theorem zeroCells_range (a n : Nat) : ∀ c ∈ zeroCells a n, a ≤ c.1 ∧ c.1 < a + n := by
  induction n generalizing a with
  | zero => simp [zeroCells]
  | succ n ih =>
    intro c hc
    rcases List.mem_cons.1 hc with rfl | hc
    · simp
    · have := ih (a + 1) c hc
      omega

theorem lmemRising_zeroCells (a n : Nat) : lmemRising (zeroCells a n) = true := by
  induction n generalizing a with
  | zero => rfl
  | succ n ih =>
    exact (lmemRising_cons a 0 _).2 ⟨fun c hc => (zeroCells_range (a + 1) n c hc).1, ih (a + 1)⟩

/-- WIPE's memory is canonical. -/
theorem memory_wf_zeroCells : Memory.wf (zeroCells 0 Config.lmemSize) = true := by
  rw [memory_wf_iff]
  refine ⟨lmemRising_zeroCells _ _, fun c hc => ?_⟩
  have := zeroCells_range 0 Config.lmemSize c hc
  simp only [Config.lmemSize] at this
  omega

/-- zeroCells lists 0x00 at exactly its n addresses. -/
theorem lmemFind_zeroCells (a n b : Nat) :
    lmemFind (zeroCells a n) b = if a ≤ b ∧ b < a + n then some 0 else none := by
  induction n generalizing a with
  | zero => simp only [zeroCells, lmemFind]; split_ifs <;> first | rfl | omega
  | succ n ih =>
    simp only [zeroCells, lmemFind, ih]
    split_ifs <;> first | rfl | omega

/-- Every cell of lmemPick lies in its range. -/
theorem lmemPick_range (f : Nat → Bool) (old new : List Host.Cell) (a n : Nat) :
    ∀ c ∈ lmemPick f old new a n, a ≤ c.1 ∧ c.1 < a + n := by
  induction n generalizing a with
  | zero => simp [lmemPick]
  | succ n ih =>
    intro c hc
    rw [lmemPick] at hc
    split at hc
    · rcases List.mem_cons.1 hc with rfl | hc
      · simp
      · have := ih (a + 1) c hc
        omega
    · have := ih (a + 1) c hc
      omega

theorem lmemRising_pick (f : Nat → Bool) (old new : List Host.Cell) (a n : Nat) :
    lmemRising (lmemPick f old new a n) = true := by
  induction n generalizing a with
  | zero => rfl
  | succ n ih =>
    rw [lmemPick]
    split
    · exact (lmemRising_cons a _ _).2 ⟨fun c hc => (lmemPick_range f old new (a + 1) n c hc).1, ih (a + 1)⟩
    · exact ih (a + 1)

/-- An aborted command leaves canonical memory, whatever the draw. -/
theorem memory_wf_pick (f : Nat → Bool) (old new : List Host.Cell) :
    Memory.wf (lmemPick f old new 0 Config.lmemSize) = true := by
  rw [memory_wf_iff]
  refine ⟨lmemRising_pick _ _ _ _ _, fun c hc => ?_⟩
  have := lmemPick_range f old new 0 Config.lmemSize c hc
  simp only [Config.lmemSize] at this
  omega

/-- Below its range a list from lo finds nothing. -/
theorem lmemFind_none_of_from {lo : Nat} {m : List Host.Cell} (hm : lmemFrom lo m) {b : Nat} (hb : b < lo) :
    lmemFind m b = none := by
  induction m with
  | nil => rfl
  | cons c rest ih =>
    obtain ⟨x, w⟩ := c
    have hx : lo ≤ x := hm (x, w) (List.mem_cons_self ..)
    rw [lmemFind, if_neg (by omega)]
    exact ih fun y hy => hm y (List.mem_cons_of_mem _ hy)

/-- The picked memory holds at each address of its range what the drawn list holds there. -/
theorem lmemFind_pick (f : Nat → Bool) (old new : List Host.Cell) (a n b : Nat) :
    lmemFind (lmemPick f old new a n) b
      = if a ≤ b ∧ b < a + n then lmemFind (if f b then new else old) b else none := by
  induction n generalizing a with
  | zero => simp only [lmemPick, lmemFind]; rw [if_neg (by omega)]
  | succ n ih =>
    rw [lmemPick]
    split
    · next v hv =>
      rw [lmemFind]
      by_cases h : b = a
      · subst h
        rw [if_pos rfl, if_pos (by omega), hv]
      · rw [if_neg h, ih (a + 1)]
        split_ifs <;> first | rfl | omega
    · next hv =>
      rw [ih (a + 1)]
      by_cases h : b = a
      · subst h
        rw [if_neg (by omega), if_pos (by omega), hv]
      · split_ifs <;> first | rfl | omega

/-- Two canonical memories that read the same are the same data. -/
theorem lmemRising_ext {m n : List Host.Cell} (hm : lmemRising m = true) (hn : lmemRising n = true)
    (h : ∀ a, lmemFind m a = lmemFind n a) : m = n := by
  induction m generalizing n with
  | nil =>
    cases n with
    | nil => rfl
    | cons c rest =>
      have := h c.1
      simp [lmemFind] at this
  | cons c rest ih =>
    obtain ⟨a, v⟩ := c
    cases n with
    | nil =>
      have := h a
      simp [lmemFind] at this
    | cons d rest' =>
      obtain ⟨b, w⟩ := d
      obtain ⟨hf, hr⟩ := (lmemRising_cons a v rest).1 hm
      obtain ⟨hf', hr'⟩ := (lmemRising_cons b w rest').1 hn
      have hab : a = b := by
        rcases Nat.lt_trichotomy a b with hlt | heq | hgt
        · have h1 := h a
          rw [lmemFind, if_pos rfl, lmemFind, if_neg (by omega),
            lmemFind_none_of_from hf' (by omega)] at h1
          cases h1
        · exact heq
        · have h1 := h b
          rw [lmemFind, if_neg (by omega), lmemFind_none_of_from hf (by omega), lmemFind, if_pos rfl] at h1
          cases h1
      subst hab
      have hvw : v = w := by
        have h1 := h a
        simpa [lmemFind] using h1
      subst hvw
      congr 1
      refine ih hr hr' fun x => ?_
      by_cases hx : x = a
      · subst hx
        rw [lmemFind_none_of_from hf (by omega), lmemFind_none_of_from hf' (by omega)]
      · have h1 := h x
        rwa [lmemFind, if_neg hx, lmemFind, if_neg hx] at h1

end Sys2Proof.Machine
end

