-- ==== Sys2Proof/Laws/Ops.lean ====
section
/-! SUPPORT. What the shared operations do: reading and writing E and LMEM, raising an error, and the completion of a command, each said once. -/

namespace Sys2Proof.Machine

/-- After a rule's step that answers, the rest of the rule runs. -/
@[simp] theorem bind_ok {α β : Type} (a : α) (f : α → Except Stop β) : ((Except.ok a : Except Stop α) >>= f) = f a := rfl

/-- After a raise the rest of the rule does not run. -/
@[simp] theorem bind_error {α β : Type} (e : Stop) (f : α → Except Stop β) :
    ((Except.error e : Except Stop α) >>= f) = Except.error e := rfl

@[simp] theorem pure_ok {α : Type} (a : α) : (pure a : Except Stop α) = Except.ok a := rfl

theorem bind_eq_ok {α β : Type} {x : Except Stop α} {f : α → Except Stop β} {b : β} :
    (x >>= f) = .ok b ↔ ∃ a, x = .ok a ∧ f a = .ok b := by
  cases x <;> simp

theorem bind_eq_error {α β : Type} {x : Except Stop α} {f : α → Except Stop β} {e : Stop} :
    (x >>= f) = .error e ↔ x = .error e ∨ ∃ a, x = .ok a ∧ f a = .error e := by
  cases x <;> simp

@[simp] theorem raiseIf_true (c : ErrorCode) (w : Word) : raiseIf true c w = .error (.raised c w) := rfl

@[simp] theorem raiseIf_false (c : ErrorCode) (w : Word) : raiseIf false c w = .ok () := rfl

theorem raiseIf_eq_ok {b : Bool} {c : ErrorCode} {w : Word} {u : Unit} : raiseIf b c w = .ok u ↔ b = false := by
  cases b <;> simp

theorem raiseIf_eq_error {b : Bool} {c : ErrorCode} {w : Word} {e : Stop} :
    raiseIf b c w = .error e ↔ b = true ∧ e = .raised c w := by
  cases b <;> simp [eq_comm]

/-- Reading E after writing it. -/
theorem readE_writeE (s : State) (r q : Reg) (v : Byte) :
    (s.writeE r v).readE q = if q = r then v else s.readE q := by
  simp only [State.readE, State.writeE, Vector.getElem_set]
  by_cases h : q = r
  · subst h; simp
  · have : r.toNat ≠ q.toNat := fun h' => h (BitVec.eq_of_toNat_eq h'.symm)
    simp [h, this]

theorem readE_congr {s t : State} (h : t.e = s.e) (r : Reg) : t.readE r = s.readE r := by
  simp [State.readE, h]

theorem readE_zero {s : State} (h : s.e = Vector.replicate 16 0) (r : Reg) : s.readE r = 0 := by
  simp [State.readE, h]

theorem lmemAt_congr {s t : State} (h : t.lmem = s.lmem) (h' : t.lmemDraw = s.lmemDraw) (a : Nat) :
    t.lmemAt a = s.lmemAt a := by
  simp [State.lmemAt, h, h']

/-- Reading LMEM after writing a byte. -/
theorem lmemAt_putByte (s : State) (a b : Nat) (v : Byte) :
    (s.putByte a v).lmemAt b = if b = a then v else s.lmemAt b := by
  simp only [State.lmemAt, State.putByte_lmem, State.putByte_lmemDraw, lmemFind_put]
  split_ifs <;> rfl

@[simp] theorem readE_putByte (s : State) (a : Nat) (v : Byte) (r : Reg) : (s.putByte a v).readE r = s.readE r := rfl

@[simp] theorem lmemAt_writeE (s : State) (q : Reg) (v : Byte) (a : Nat) : (s.writeE q v).lmemAt a = s.lmemAt a := rfl

@[simp] theorem readE_recordError (s : State) (c : ErrorCode) (w : Word) (r : Reg) : (s.recordError c w).readE r = s.readE r := rfl

@[simp] theorem lmemAt_recordError (s : State) (c : ErrorCode) (w : Word) (a : Nat) : (s.recordError c w).lmemAt a = s.lmemAt a := rfl

@[simp] theorem readE_recordDone (s : State) (r : Reg) : s.recordDone.readE r = s.readE r := rfl

@[simp] theorem lmemAt_recordDone (s : State) (a : Nat) : s.recordDone.lmemAt a = s.lmemAt a := rfl

@[simp] theorem readE_clearStatus (s : State) (r : Reg) : s.clearStatus.readE r = s.readE r := rfl

@[simp] theorem lmemAt_clearStatus (s : State) (a : Nat) : s.clearStatus.lmemAt a = s.lmemAt a := rfl

@[simp] theorem readE_discard (s : State) (r : Reg) : s.discard.readE r = s.readE r := rfl

@[simp] theorem lmemAt_discard (s : State) (a : Nat) : s.discard.lmemAt a = s.lmemAt a := rfl

@[simp] theorem readE_accept (s : State) (w : Word) (r : Reg) : (s.accept w).readE r = s.readE r := rfl

@[simp] theorem lmemAt_accept (s : State) (w : Word) (a : Nat) : (s.accept w).lmemAt a = s.lmemAt a := rfl

@[simp] theorem readE_answer (s : State) (x : Response) (r : Reg) : (s.answer x).readE r = s.readE r := rfl

@[simp] theorem lmemAt_answer (s : State) (x : Response) (a : Nat) : (s.answer x).lmemAt a = s.lmemAt a := rfl

/-- After WIPE every byte of LMEM is 0x00. -/
theorem lmemAt_zeroAll (s : State) (a : Nat) (ha : a < 4096) : s.zeroAll.lmemAt a = 0 := by
  have : 0 ≤ a ∧ a < 0 + Config.lmemSize := ⟨Nat.zero_le a, by simpa [Config.lmemSize] using ha⟩
  simp only [State.lmemAt, State.zeroAll_lmem, lmemFind_zeroCells, if_pos this, Option.getD_some]

theorem memRead_of_lt {s : State} {a : Nat} (h : a < 4096) : s.memRead a = .ok (s.lmemAt a) :=
  if_pos h

theorem memWrite_of_lt {s : State} {a : Nat} {v : Byte} (h : a < 4096) : s.memWrite a v = .ok (s.putByte a v) :=
  if_pos h

theorem memRead16_of_lt {s : State} {a : Nat} (h : a + 1 < 4096) :
    s.memRead16 a = .ok (s.lmemAt (a + 1) ++ s.lmemAt a) := by
  simp [State.memRead16, memRead_of_lt (show a < 4096 by omega), memRead_of_lt h]

/-- What memRead16 reads is the little-endian number. -/
theorem toNat_le16 (s : State) (a : Nat) : (s.lmemAt (a + 1) ++ s.lmemAt a).toNat = s.le16 a := by
  have h := Nat.two_pow_add_eq_or_of_lt (s.lmemAt a).isLt (s.lmemAt (a + 1)).toNat
  rw [BitVec.toNat_append, Nat.shiftLeft_eq, Nat.mul_comm _ (2 ^ 8), ← h, State.le16]
  omega

/-- Everything a completion can do: record DONE for the state the rule gives, record an error on the state before, or
stop. -/
theorem complete_cases {s t : State} {r : Except Stop State} (h : complete s r = .next t) :
    (∃ u, r = .ok u ∧ t = u.recordDone) ∨ ∃ c w, r = .error (.raised c w) ∧ t = s.recordError c w := by
  match r, h with
  | .ok u, h => exact .inl ⟨u, rfl, by simpa [complete] using h.symm⟩
  | .error (.raised c w), h => exact .inr ⟨c, w, rfl, by simpa [complete] using h.symm⟩
  | .error (.stuck f), h => simp [complete] at h

@[simp] theorem complete_ok (s u : State) : complete s (.ok u) = .next u.recordDone := rfl

@[simp] theorem complete_raised (s : State) (c : ErrorCode) (w : Word) :
    complete s (.error (.raised c w)) = .next (s.recordError c w) := rfl

/-- The success branch of a completion on the status. -/
theorem succeeded_recordDone {s u : State}
    (h : u.err = s.err ∧ u.errCode = s.errCode ∧ u.errInfo = s.errInfo ∧ SameControl s u) :
    Succeeded s u.recordDone := by
  obtain ⟨h1, h2, h3, h4⟩ := h
  exact ⟨rfl, rfl, h1, h2, h3, h4⟩

/-- The failure branch of a completion. -/
theorem failed_recordError (s : State) (c : ErrorCode) (w : Word) : Failed s (s.recordError c w) (errorNumber c) w :=
  ⟨rfl, rfl, rfl, rfl, rfl, ⟨rfl, rfl, rfl, rfl, rfl, rfl, rfl, rfl⟩, fun _ => rfl, fun _ => rfl⟩

/-- Every error's number is one of 0x01 to 0x06 (60_exceptions R221). -/
theorem errorNumber_range (c : ErrorCode) : 1 ≤ (errorNumber c).toNat ∧ (errorNumber c).toNat ≤ 6 := by
  cases c <;> decide

end Sys2Proof.Machine
end

