-- ==== Sys2Proof/Laws/Operands.lean ====
section
/-! SUPPORT. What the operand forms do: the range check, the detail words, and reading share descriptors. -/

namespace Sys2Proof.Machine

theorem inRange_iff (a n : Nat) : inRange a n = true ↔ RangeOk a n := by
  rw [inRange, decide_eq_true_eq]
  rfl

/-- A range that passes raises nothing. -/
theorem requireRange_of_ok {a n : Nat} (h : RangeOk a n) : requireRange a n = .ok () := by
  simp [requireRange, (inRange_iff a n).2 h]

/-- A range that fails raises ADDRESS_RANGE with its length and start. -/
theorem requireRange_of_not {a n : Nat} (h : ¬ RangeOk a n) :
    requireRange a n = .error (.raised .addressRange (rangeInfo n a)) := by
  have : inRange a n = false := by
    rw [← Bool.not_eq_true, inRange_iff]
    exact h
  simp [requireRange, this]

/-- All requireRange can do. -/
theorem requireRange_cases (a n : Nat) :
    (RangeOk a n ∧ requireRange a n = .ok ())
      ∨ (¬ RangeOk a n ∧ requireRange a n = .error (.raised .addressRange (rangeInfo n a))) := by
  by_cases h : RangeOk a n
  · exact .inl ⟨h, requireRange_of_ok h⟩
  · exact .inr ⟨h, requireRange_of_not h⟩

/-- The detail word of ADDRESS_RANGE as a number. -/
theorem rangeInfo_eq {len start : Nat} (hl : len < 65536) (hs : start < 65536) :
    rangeInfo len start = BitVec.ofNat 32 (len * 65536 + start) := by
  apply BitVec.eq_of_toNat_eq
  have h := Nat.two_pow_add_eq_or_of_lt (show start < 2 ^ 16 by omega) len
  simp only [rangeInfo, BitVec.toNat_append, BitVec.toNat_ofNat, Nat.shiftLeft_eq]
  rw [Nat.mod_eq_of_lt (show len < 2 ^ 16 by omega), Nat.mod_eq_of_lt (show start < 2 ^ 16 by omega),
    Nat.mul_comm _ (2 ^ 16), ← h, Nat.mod_eq_of_lt (by omega)]

/-- The detail word of DUPLICATE_SHARE_ID as a number. -/
theorem pairInfo_eq {j m : Nat} (hj : j < 256) (hm : m < 256) : pairInfo j m = BitVec.ofNat 32 (m * 256 + j) := by
  apply BitVec.eq_of_toNat_eq
  have h := Nat.two_pow_add_eq_or_of_lt (show j < 2 ^ 8 by omega) m
  simp only [pairInfo, BitVec.toNat_append, BitVec.toNat_ofNat, Nat.shiftLeft_eq]
  rw [Nat.mod_eq_of_lt (show m < 2 ^ 8 by omega), Nat.mod_eq_of_lt (show j < 2 ^ 8 by omega)]
  norm_num
  rw [Nat.mul_comm m 256, show (256 : Nat) = 2 ^ 8 from rfl, ← h, Nat.mod_eq_of_lt (by omega)]

/-- The descriptor memory shows at d. -/
def State.shareAt (s : State) (d : Nat) : Share where
  id := s.lmemAt d
  len := s.lmemAt (d + 3) ++ s.lmemAt (d + 2)
  adr := s.lmemAt (d + 5) ++ s.lmemAt (d + 4)

theorem readShare_of_lt {s : State} {d : Nat} (h : d + 6 ≤ 4096) : s.readShare d = .ok (s.shareAt d) := by
  simp [State.readShare, State.shareAt, memRead_of_lt (show d < 4096 by omega),
    memRead16_of_lt (show d + 2 + 1 < 4096 by omega), memRead16_of_lt (show d + 4 + 1 < 4096 by omega)]

/-- The descriptors of a table that lies in LMEM. -/
theorem readShares_of_le {s : State} {t j n : Nat} (h : t + 4 + 6 * (j + n) ≤ 4096) :
    s.readShares t j n = .ok ((List.range' j n).map fun k => s.shareAt (t + 4 + 6 * k)) := by
  induction n generalizing j with
  | zero => rfl
  | succ n ih =>
    rw [State.readShares, readShare_of_lt (by omega), ih (by omega)]
    simp [List.range'_succ]

theorem shareAt_id (s : State) (t j : Nat) : (s.shareAt (t + 4 + 6 * j)).id = s.tableId t j := rfl

theorem shareAt_len (s : State) (t j : Nat) : (s.shareAt (t + 4 + 6 * j)).len.toNat = s.tableLen t j := by
  rw [State.tableLen, show t + 6 + 6 * j = t + 4 + 6 * j + 2 by omega]
  exact toNat_le16 s (t + 4 + 6 * j + 2)

theorem shareAt_adr (s : State) (t j : Nat) : (s.shareAt (t + 4 + 6 * j)).adr.toNat = s.tableAdr t j := by
  rw [State.tableAdr, show t + 8 + 6 * j = t + 4 + 6 * j + 4 by omega]
  exact toNat_le16 s (t + 4 + 6 * j + 4)

end Sys2Proof.Machine
end

