-- ==== Sys2Proof/Laws/Lagrange.lean ====
section
/-! SUPPORT. What each part of LAGR does: the duplicate and length checks, the basis coefficients, one byte position, and all of them. -/

namespace Sys2Proof.Machine

/-- The duplicate search finds nothing exactly when no listed ID equals an earlier one. -/
theorem firstDuplicate_eq_none {seen rest : List Byte} :
    firstDuplicate seen rest = none
      ↔ ∀ m, seen.length ≤ m → m < (seen ++ rest).length → ∀ j < m, (seen ++ rest)[j]? ≠ (seen ++ rest)[m]? := by
  induction rest generalizing seen with
  | nil =>
    simp only [firstDuplicate, List.append_nil, true_iff]
    intro m h1 h2
    omega
  | cons x rest ih =>
    rw [firstDuplicate]
    split
    · next j hj =>
      obtain ⟨hlt, heq, -⟩ := List.findIdx?_eq_some_iff_getElem.1 hj
      simp only [reduceCtorEq, false_iff, not_forall]
      refine ⟨seen.length, le_refl _, by simp, j, hlt, ?_⟩
      simp only [beq_iff_eq] at heq
      simp [List.getElem?_append_left hlt, List.getElem?_eq_getElem hlt, heq]
    · next hnone =>
      rw [ih]
      have happ : seen ++ [x] ++ rest = seen ++ x :: rest := by simp
      simp only [happ, List.length_append, List.length_cons, List.length_nil]
      constructor
      · intro h m hm hlt j hj
        rcases Nat.lt_or_ge seen.length m with hm' | hm'
        · exact h m (by omega) (by omega) j hj
        · have : m = seen.length := by omega
          subst this
          have hall := List.findIdx?_eq_none_iff.1 hnone (seen[j]) (List.getElem_mem hj)
          simpa [List.getElem?_append_left hj, List.getElem?_eq_getElem hj] using hall
      · intro h m hm hlt j hj
        exact h m (by omega) (by omega) j hj

/-- The pair the duplicate search finds is equal, and it is the first: no later ID before it equals an earlier one, and
no smaller j does. -/
theorem firstDuplicate_eq_some {seen rest : List Byte} {j m : Nat} (h : firstDuplicate seen rest = some (j, m)) :
    seen.length ≤ m ∧ m < (seen ++ rest).length ∧ j < m ∧ (seen ++ rest)[j]? = (seen ++ rest)[m]?
      ∧ (∀ j' < j, (seen ++ rest)[j']? ≠ (seen ++ rest)[m]?)
      ∧ ∀ m', seen.length ≤ m' → m' < m → ∀ j' < m', (seen ++ rest)[j']? ≠ (seen ++ rest)[m']? := by
  induction rest generalizing seen with
  | nil => simp [firstDuplicate] at h
  | cons x rest ih =>
    rw [firstDuplicate] at h
    split at h
    · next k hk =>
      obtain ⟨hlt, heq, hfirst⟩ := List.findIdx?_eq_some_iff_getElem.1 hk
      simp only [Option.some.injEq, Prod.mk.injEq] at h
      obtain ⟨rfl, rfl⟩ := h
      simp only [beq_iff_eq] at heq hfirst
      refine ⟨le_refl _, by simp, hlt, by simp [List.getElem?_append_left hlt, List.getElem?_eq_getElem hlt, heq], fun j' hj' => ?_, ?_⟩
      · have := hfirst j' hj'
        simpa [List.getElem?_append_left (Nat.lt_trans hj' hlt), List.getElem?_eq_getElem (Nat.lt_trans hj' hlt)] using this
      · intro m' h1 h2
        omega
    · next hnone =>
      have happ : seen ++ [x] ++ rest = seen ++ x :: rest := by simp
      obtain ⟨h1, h2, h3, h4, h5, h6⟩ := ih h
      rw [happ] at h2 h4 h5 h6
      simp only [List.length_append, List.length_cons, List.length_nil] at h1 h6
      refine ⟨by omega, h2, h3, h4, h5, fun m' hm1 hm2 j' hj' => ?_⟩
      rcases Nat.lt_or_ge seen.length m' with hm' | hm'
      · exact h6 m' (by omega) hm2 j' hj'
      · have : m' = seen.length := by omega
        subst this
        have hall := List.findIdx?_eq_none_iff.1 hnone (seen[j']) (List.getElem_mem hj')
        simpa [List.getElem?_append_left hj', List.getElem?_eq_getElem hj'] using hall

/-- The payload checks pass when every range does. -/
theorem checkPayloads_of_ok {len : Nat} {l : List Share} (h : ∀ sh ∈ l, RangeOk sh.adr.toNat len) :
    checkPayloads len l = .ok () := by
  induction l with
  | nil => rfl
  | cons sh rest ih =>
    rw [checkPayloads, requireRange_of_ok (h sh (List.mem_cons_self ..)), bind_ok]
    exact ih fun x hx => h x (List.mem_cons_of_mem _ hx)

/-- The first payload whose range fails is the one reported. -/
theorem checkPayloads_of_not {len : Nat} {pre post : List Share} {sh : Share}
    (h : ∀ x ∈ pre, RangeOk x.adr.toNat len) (hsh : ¬ RangeOk sh.adr.toNat len) :
    checkPayloads len (pre ++ sh :: post) = .error (.raised .addressRange (rangeInfo len sh.adr.toNat)) := by
  induction pre with
  | nil => rw [List.nil_append, checkPayloads, requireRange_of_not hsh, bind_error]
  | cons x rest ih =>
    rw [List.cons_append, checkPayloads, requireRange_of_ok (h x (List.mem_cons_self ..)), bind_ok]
    exact ih fun y hy => h y (List.mem_cons_of_mem _ hy)

/-- The loop of R176 over all IDs l, stopped before the IDs pre have been passed, gives the two products over all m ≠ j. -/
theorem basisProducts_eq (xj : Byte) (j : Nat) (pre rest : List Byte) :
    basisProducts xj j pre.length rest
        (fieldProd pre.length fun m => if m = j then 0x01 else (pre ++ rest).getD m 0)
        (fieldProd pre.length fun m => if m = j then 0x01 else xj ^^^ (pre ++ rest).getD m 0)
      = (fieldProd (pre ++ rest).length fun m => if m = j then 0x01 else (pre ++ rest).getD m 0,
        fieldProd (pre ++ rest).length fun m => if m = j then 0x01 else xj ^^^ (pre ++ rest).getD m 0) := by
  induction rest generalizing pre with
  | nil => simp [basisProducts]
  | cons x rest ih =>
    have happ : pre ++ [x] ++ rest = pre ++ x :: rest := by simp
    have hx : (pre ++ x :: rest).getD pre.length 0 = x := by simp
    have ih' := ih (pre ++ [x])
    simp only [happ, List.length_append, List.length_cons, List.length_nil, Nat.zero_add, fieldProd, hx] at ih' ⊢
    rw [basisProducts]
    split
    · next h =>
      simp only [h, if_true, gmul_one] at ih' ⊢
      exact ih'
    · next h =>
      simp only [h, if_false, gadd] at ih' ⊢
      exact ih'

/-- The products for the share j of the table whose IDs are l. -/
theorem basisProducts_all (xj : Byte) (j : Nat) (l : List Byte) :
    basisProducts xj j 0 l 0x01 0x01
      = (fieldProd l.length fun m => if m = j then 0x01 else l.getD m 0,
        fieldProd l.length fun m => if m = j then 0x01 else xj ^^^ l.getD m 0) := by
  simpa [fieldProd] using basisProducts_eq xj j [] l

/-- Every coefficient of the list is the quotient of its products, where no denominator is 0x00. -/
theorem basisList_of_ne {ids rest : List Byte} {j : Nat}
    (h : ∀ k (hk : k < rest.length), (basisProducts rest[k] (j + k) 0 ids 0x01 0x01).2 ≠ 0) :
    basisList ids j rest = .ok ((List.range rest.length).map fun k =>
      let p := basisProducts (rest.getD k 0) (j + k) 0 ids 0x01 0x01
      gdiv p.1 p.2) := by
  induction rest generalizing j with
  | nil => rfl
  | cons x rest ih =>
    have h0 := h 0 (by simp)
    simp only [List.getElem_cons_zero, Nat.add_zero] at h0
    have ih' := ih (j := j + 1) fun k hk => by
      have := h (k + 1) (by simpa using hk)
      simpa [Nat.add_comm, Nat.add_left_comm] using this
    rw [basisList, basis, if_neg h0, bind_ok, ih', bind_ok, List.length_cons, List.range_succ_eq_map]
    simp [Nat.add_comm, Nat.add_left_comm, Function.comp_def]

/-- One byte position, its payload bytes inside LMEM. -/
theorem laneSum_of_lt {s : State} {i : Nat} {terms : List (Nat × Byte)} {acc : Byte}
    (h : ∀ p ∈ terms, p.1 + i < 4096) :
    s.laneSum i terms acc
      = .ok (terms.foldl (fun acc p => gadd acc (gmul (s.lmemAt (p.1 + i)) p.2)) acc) := by
  induction terms generalizing acc with
  | nil => rfl
  | cons p rest ih =>
    rw [State.laneSum, memRead_of_lt (h p (List.mem_cons_self ..)), bind_ok,
      ih fun x hx => h x (List.mem_cons_of_mem _ hx)]
    rfl

/-- The sum of byte position i when memory reads as f. -/
def laneValue (f : Nat → Byte) (i : Nat) (terms : List (Nat × Byte)) : Byte :=
  terms.foldl (fun acc p => gadd acc (gmul (f (p.1 + i)) p.2)) 0x00

theorem laneValue_congr {f g : Nat → Byte} {i : Nat} {terms : List (Nat × Byte)}
    (h : ∀ p ∈ terms, f (p.1 + i) = g (p.1 + i)) : laneValue f i terms = laneValue g i terms := by
  unfold laneValue
  generalize (0x00 : Byte) = acc
  induction terms generalizing acc with
  | nil => rfl
  | cons p rest ih =>
    simp only [List.foldl_cons, h p (List.mem_cons_self ..)]
    exact ih (fun x hx => h x (List.mem_cons_of_mem _ hx)) _

/-- Everything the byte positions do when all they touch lies in LMEM: only LMEM changes, only the output bytes, and the
output byte of position k is the sum over memory in which the output bytes before it are already written (42_lagrange
R178). -/
theorem lanes_of_le {terms : List (Nat × Byte)} {out i n : Nat} {s : State}
    (hr : ∀ p ∈ terms, p.1 + (i + n) ≤ 4096) (hw : out + (i + n) ≤ 4096) :
    ∃ t, State.lanes terms out i n s = .ok t ∧ t = { s with lmem := t.lmem }
      ∧ (∀ a, ¬ (out + i ≤ a ∧ a < out + (i + n)) → t.lmemAt a = s.lmemAt a)
      ∧ ∀ k, i ≤ k → k < i + n → t.lmemAt (out + k)
        = laneValue (fun a => if out + i ≤ a ∧ a < out + k then t.lmemAt a else s.lmemAt a) k terms := by
  induction n generalizing i s with
  | zero => exact ⟨s, rfl, rfl, fun _ _ => rfl, fun k h1 h2 => by omega⟩
  | succ n ih =>
    have hsum := laneSum_of_lt (s := s) (i := i) (terms := terms) (acc := 0x00)
      fun p hp => by have := hr p hp; omega
    obtain ⟨t, h1, h2, h3, h4⟩ := ih (i := i + 1) (s := s.putByte (out + i) (laneValue s.lmemAt i terms))
      (fun p hp => by have := hr p hp; omega) (by omega)
    refine ⟨t, ?_, ?_, ?_, ?_⟩
    · rw [State.lanes, hsum, bind_ok, memWrite_of_lt (by omega), bind_ok]
      exact h1
    · rw [h2]
      rfl
    · intro a ha
      rw [h3 a (by omega), lmemAt_putByte, if_neg (by omega)]
    · intro k hk1 hk2
      rcases Nat.lt_or_ge i k with hk | hk
      · rw [h4 k (by omega) (by omega)]
        apply laneValue_congr
        intro p _
        by_cases ha : p.1 + k = out + i
        · rw [if_neg (by omega), if_pos (by omega), ha, lmemAt_putByte, if_pos rfl, h3 (out + i) (by omega),
            lmemAt_putByte, if_pos rfl]
        · rw [lmemAt_putByte, if_neg ha]
          by_cases hb : out + i ≤ p.1 + k ∧ p.1 + k < out + k
          · rw [if_pos (by omega), if_pos hb]
          · rw [if_neg (by omega), if_neg hb]
      · have : k = i := by omega
        subst this
        rw [h3 (out + k) (by omega), lmemAt_putByte, if_pos rfl]
        apply laneValue_congr
        intro p _
        rw [if_neg (by omega)]

/-- What the byte positions can change when they answer, wherever they read: LMEM alone, and its canonical form is
kept. -/
theorem lanes_frame {terms : List (Nat × Byte)} {out i n : Nat} {s t : State}
    (h : State.lanes terms out i n s = .ok t) :
    t = { s with lmem := t.lmem } ∧ (Memory.wf s.lmem = true → Memory.wf t.lmem = true) := by
  induction n generalizing i s with
  | zero =>
    cases h
    exact ⟨rfl, id⟩
  | succ n ih =>
    rw [State.lanes, bind_eq_ok] at h
    obtain ⟨v, -, h⟩ := h
    rw [bind_eq_ok] at h
    obtain ⟨u, hu, h⟩ := h
    rw [State.memWrite] at hu
    split at hu
    · next hlt =>
      cases hu
      obtain ⟨h1, h2⟩ := ih h
      exact ⟨by rw [h1]; rfl, fun hs => h2 (memory_wf_put hs hlt)⟩
    · cases hu

end Sys2Proof.Machine
end

