-- ==== Sys2Proof/Laws/Polynomial.lean ====
section
/-! SUPPORT. What the Horner loop of PEVAL computes over coefficients that lie in LMEM. -/

namespace Sys2Proof.Machine

/-- The loop over n coefficients inside LMEM answers the fold that takes the highest coefficient first. -/
theorem horner_of_le {s : State} {x : Byte} {a n : Nat} {acc : Byte} (h : a + n ≤ 4096) :
    s.horner x a n acc
      = .ok ((List.range n).foldr (fun i acc => gmul acc x ^^^ s.lmemAt (a + i)) acc) := by
  induction n generalizing acc with
  | zero => rfl
  | succ n ih =>
    rw [State.horner, memRead_of_lt (by omega), bind_ok, ih (by omega), List.range_succ]
    simp [gadd]

/-- The loop PEVAL runs once its range check has passed. -/
theorem horner_of_ok {s : State} {x : Byte} {a n : Nat} (h : RangeOk a n) :
    s.horner x a n 0x00
      = .ok ((List.range n).foldr (fun i acc => gmul acc x ^^^ s.lmemAt (a + i)) 0x00) := by
  rcases h with rfl | h
  · rfl
  · exact horner_of_le h

end Sys2Proof.Machine
end

