-- ==== Sys2Proof/Laws/Exec.lean ====
section
/-! SUPPORT. Everything a completion can do, said once for all commands and for the completion of any word. -/

namespace Sys2Proof.Machine

/-- What the rule of a command may change when it succeeds: E and LMEM, LMEM staying canonical. -/
def RuleFrame (s u : State) : Prop :=
  u = { s with e := u.e, lmem := u.lmem } ∧ (Memory.wf s.lmem = true → Memory.wf u.lmem = true)

theorem ruleFrame_writeE (s : State) (r : Reg) (v : Byte) : RuleFrame s (s.writeE r v) :=
  ⟨rfl, id⟩

theorem ruleFrame_zeroAll (s : State) : RuleFrame s s.zeroAll :=
  ⟨rfl, fun _ => memory_wf_zeroCells⟩

theorem ruleFrame_memWrite {s u : State} {a : Nat} {v : Byte} (h : s.memWrite a v = .ok u) : RuleFrame s u := by
  rw [State.memWrite] at h
  split at h
  · next hlt =>
    cases h
    exact ⟨rfl, fun hs => memory_wf_put hs hlt⟩
  · cases h

/-- A completion that answers either records DONE for a state whose rule changed E and LMEM alone, or records an error on
the state before. -/
def Answered (s t : State) : Prop :=
  (∃ u, RuleFrame s u ∧ t = u.recordDone) ∨ ∃ c w, t = s.recordError c w

/-- Completing a rule all of whose successes have the frame answers as Answered says. -/
theorem answered_of_complete {s t : State} {r : Except Stop State} (hr : ∀ u, r = .ok u → RuleFrame s u)
    (h : complete s r = .next t) : Answered s t := by
  rcases complete_cases h with ⟨u, hu, rfl⟩ | ⟨c, w, -, rfl⟩
  · exact .inl ⟨u, hr u hu, rfl⟩
  · exact .inr ⟨c, w, rfl⟩

/-- A rule that ends by writing one register has the frame. -/
theorem ruleFrame_of_bind {α : Type} {s u : State} {x : Except Stop α} {r : Reg} {f : α → Byte}
    (h : (x >>= fun a => (pure (s.writeE r (f a)) : Except Stop State)) = .ok u) : RuleFrame s u := by
  rw [bind_eq_ok] at h
  obtain ⟨a, -, h⟩ := h
  cases h
  exact ruleFrame_writeE s r (f a)

/-- EVERYTHING EXEC CAN DO: if it answers a next state, Answered says which. -/
theorem exec_answered {i : Instr} {s t : State} (h : exec i s = .next t) : Answered s t := by
  cases i with
  | fadd rd rs1 rs2 =>
    rw [exec, execFadd] at h
    exact answered_of_complete (by rintro u ⟨⟩; exact ruleFrame_writeE s rd _) h
  | fsub rd rs1 rs2 =>
    rw [exec, execFsub] at h
    exact answered_of_complete (by rintro u ⟨⟩; exact ruleFrame_writeE s rd _) h
  | fmul rd rs1 rs2 =>
    rw [exec, execFmul] at h
    exact answered_of_complete (by rintro u ⟨⟩; exact ruleFrame_writeE s rd _) h
  | finv rd rs1 => exact answered_of_complete (fun u hu => ruleFrame_of_bind hu) h
  | fdiv rd rs1 rs2 => exact answered_of_complete (fun u hu => ruleFrame_of_bind hu) h
  | peval rd rs1 rs2 addr =>
    refine answered_of_complete (fun u hu => ?_) h
    rw [bind_eq_ok] at hu
    obtain ⟨_, -, hu⟩ := hu
    exact ruleFrame_of_bind hu
  | lagr addr =>
    refine answered_of_complete (fun u hu => ?_) h
    repeat
      rw [bind_eq_ok] at hu
      obtain ⟨_, -, hu⟩ := hu
    obtain ⟨h1, h2⟩ := lanes_frame hu
    exact ⟨by rw [h1], h2⟩
  | ldi rd imm8 =>
    rw [exec, execLdi] at h
    exact answered_of_complete (by rintro u ⟨⟩; exact ruleFrame_writeE s rd _) h
  | ld rd addr => exact answered_of_complete (fun u hu => ruleFrame_of_bind hu) h
  | st rs1 addr => exact answered_of_complete (fun u hu => ruleFrame_memWrite hu) h
  | wipe =>
    rw [exec, execWipe] at h
    exact answered_of_complete (by rintro u ⟨⟩; exact ruleFrame_zeroAll s) h

/-- What both branches of a completion leave as it was, and what they make of the rest. -/
theorem Answered.control {s t : State} (h : Answered s t) : t.pend = none ∧ SameControl s t := by
  rcases h with ⟨u, ⟨hu, -⟩, rfl⟩ | ⟨c, w, rfl⟩
  · refine ⟨rfl, ?_⟩
    rw [hu]
    exact ⟨rfl, rfl, rfl, rfl, rfl, rfl, rfl, rfl⟩
  · exact ⟨rfl, rfl, rfl, rfl, rfl, rfl, rfl, rfl, rfl⟩

/-- A completion keeps LMEM canonical. -/
theorem Answered.memory_wf {s t : State} (h : Answered s t) (hs : Memory.wf s.lmem = true) : Memory.wf t.lmem = true := by
  rcases h with ⟨u, ⟨-, hu⟩, rfl⟩ | ⟨c, w, rfl⟩
  · exact hu hs
  · exact hs

/-- Everything the completion of a word can do: run the command, or record ILLEGAL_CMD. -/
theorem completeWord_cases {c : Word} {s t : State} (h : completeWord c s = .next t) :
    (∃ i, decode c = some i ∧ exec i s = .next t)
      ∨ (decode c = none ∧ t = s.recordError .illegalCmd 0x00000000) := by
  rw [completeWord] at h
  split at h
  · next i hi => exact .inl ⟨i, hi, h⟩
  · next hi =>
    cases h
    exact .inr ⟨hi, rfl⟩

theorem completeWord_answered {c : Word} {s t : State} (h : completeWord c s = .next t) : Answered s t := by
  rcases completeWord_cases h with ⟨i, -, hi⟩ | ⟨-, rfl⟩
  · exact exec_answered hi
  · exact .inr ⟨_, _, rfl⟩

end Sys2Proof.Machine
end

