-- ==== Sys2Proof/Laws/HostPort.lean ====
section
/-! SUPPORT. What the host port and the resets do: where each offset leads, the soft reset's fields and LMEM, and the frame of a host write. -/

namespace Sys2Proof.Machine

/-- The offsets of 20_memory R64 have no place. -/
theorem placeOf_eq_none {off : Nat} : placeOf off = none ↔ off % 4 ≠ 0 ∨ 0x2000 ≤ off := by
  unfold placeOf
  split_ifs with h <;> simp [h]

/-- The word of the element register k (20_memory R66). -/
theorem placeOf_element (k : Reg) : placeOf (0x040 + 4 * k.toNat) = some (.element k) := by
  have hk := k.isLt
  have h4 : (0x040 + 4 * k.toNat - 0x040) / 4 = k.toNat := by omega
  unfold placeOf
  rw [if_neg (by omega), if_neg (by omega), if_pos (by omega), h4, BitVec.ofNat_toNat, BitVec.setWidth_eq]

/-- The word of the LMEM bytes 4w to 4w + 3 (20_memory R67). -/
theorem placeOf_lmem {w : Nat} (h : w < 1024) : placeOf (0x1000 + 4 * w) = some (.lmem (4 * w)) := by
  unfold placeOf
  rw [if_neg (by omega), if_pos (by omega)]
  simp

/-- A reserved offset (20_memory R63, R65). -/
theorem placeOf_reserved {off : Nat} (h4 : off % 4 = 0)
    (h : (0x014 ≤ off ∧ off ≤ 0x03C) ∨ (0x080 ≤ off ∧ off ≤ 0xFFC)) : placeOf off = some .reserved := by
  unfold placeOf
  split_ifs <;> first | rfl | omega

/-- What the offset of a place is. -/
theorem placeOf_cases {off : Nat} {p : Place} (h : placeOf off = some p) :
    off % 4 = 0 ∧ off < 0x2000 ∧
      match p with
      | .id => off = 0x000
      | .cmd => off = 0x004
      | .status => off = 0x008
      | .ctrl => off = 0x00C
      | .errInfo => off = 0x010
      | .reserved => (0x014 ≤ off ∧ off ≤ 0x03C) ∨ (0x080 ≤ off ∧ off ≤ 0xFFC)
      | .element k => off = 0x040 + 4 * k.toNat
      | .lmem base => off = 0x1000 + base ∧ base % 4 = 0 ∧ base + 3 < 4096 := by
  unfold placeOf at h
  split_ifs at h with h1 h2 h3 h4 h5 h6 h7 h8 <;> simp only [Option.some.injEq] at h <;> subst h
  · refine ⟨by omega, by omega, ?_, ?_, ?_⟩ <;> omega
  · refine ⟨by omega, by omega, ?_⟩
    show off = 0x040 + 4 * (BitVec.ofNat 4 ((off - 0x040) / 4)).toNat
    rw [BitVec.toNat_ofNat, Nat.mod_eq_of_lt (by omega)]
    omega
  all_goals refine ⟨by omega, by omega, ?_⟩; first | assumption | omega

/-- Reading LMEM after writing a word. -/
theorem lmemAt_putWord (s : State) (base a : Nat) (d : Word) :
    (s.putWord base d).lmemAt a =
      if a = base then d.extractLsb' 0 8
      else if a = base + 1 then d.extractLsb' 8 8
      else if a = base + 2 then d.extractLsb' 16 8
      else if a = base + 3 then d.extractLsb' 24 8
      else s.lmemAt a := by
  simp only [State.putWord, lmemAt_putByte]
  split_ifs <;> first | rfl | omega

/-- Writing a word changes LMEM alone. -/
theorem putWord_frame (s : State) (base : Nat) (d : Word) :
    s.putWord base d = { s with lmem := (s.putWord base d).lmem } := rfl

theorem memory_wf_putWord {s : State} {base : Nat} {d : Word} (hs : Memory.wf s.lmem = true) (hb : base + 3 < 4096) :
    Memory.wf (s.putWord base d).lmem = true :=
  memory_wf_put (memory_wf_put (memory_wf_put (memory_wf_put hs (by omega)) (by omega)) (by omega)) hb

/-- The abort of a command in flight changes LMEM and the draw alone. -/
theorem abort_frame (s : State) : s.abort = { s with lmem := s.abort.lmem, abortDraw := s.abort.abortDraw } := by
  unfold State.abort
  split <;> rfl

/-- Everything a soft reset leaves but LMEM (70_reset R262). -/
theorem softReset_frame (s : State) : s.softReset = { s with
    e := Vector.replicate 16 0, pend := none, lastCmd := 0, done := false, err := false, ovr := false,
    errCode := 0, errInfo := 0, ie := false, lmem := s.abort.lmem, abortDraw := s.abort.abortDraw } := by
  rw [State.softReset, abort_frame s]
  rfl

/-- LMEM after a soft reset, byte by byte: drawn between the value the completed command would leave and the present
one (70_reset R262). -/
theorem lmemAt_softReset {s : State} {c : Word} (hc : s.pend = some c) {a : Nat} (ha : a < 4096) :
    s.softReset.lmemAt a =
      if Config.abortTakesNew s.abortDraw a then { s with lmem := s.lmemAfter c }.lmemAt a else s.lmemAt a := by
  have hl : s.softReset.lmem = s.abortedLmem c := by
    rw [softReset_frame]
    simp [State.abort, hc]
  have hd : s.softReset.lmemDraw = s.lmemDraw := by rw [softReset_frame]
  simp only [State.lmemAt, hl, hd, State.abortedLmem]
  split
  · next h => rw [h]; split <;> rfl
  · rw [lmemFind_pick, if_pos ⟨Nat.zero_le a, by simpa [Config.lmemSize] using ha⟩]
    split <;> rfl

theorem memory_wf_abort {s : State} (hs : Memory.wf s.lmem = true) : Memory.wf s.abort.lmem = true := by
  unfold State.abort
  split
  · exact hs
  · unfold State.abortedLmem
    simp only
    split
    · exact hs
    · exact memory_wf_pick _ _ _

/-- What no host write changes: the level of rst, the model's lists and the draw of LMEM_RESET. -/
theorem hostWrite_frame (s : State) (off : Nat) (d : Word) : (s.hostWrite off d).2.rst = s.rst
    ∧ (s.hostWrite off d).2.inputs = s.inputs ∧ (s.hostWrite off d).2.responses = s.responses
    ∧ (s.hostWrite off d).2.lmemDraw = s.lmemDraw := by
  have same : s.rst = s.rst ∧ s.inputs = s.inputs ∧ s.responses = s.responses ∧ s.lmemDraw = s.lmemDraw :=
    ⟨rfl, rfl, rfl, rfl⟩
  unfold State.hostWrite
  split
  · exact same
  · next p _ =>
    cases p with
    | id | status | errInfo | reserved => exact same
    | cmd =>
      dsimp only [State.writePlace, State.writeCmd]
      split <;> exact same
    | ctrl =>
      dsimp only [State.writePlace, State.writeCtrl]
      split
      · rw [softReset_frame]
        exact same
      · split <;> exact same
    | element k =>
      dsimp only [State.writePlace]
      split <;> exact same
    | lmem base =>
      dsimp only [State.writePlace]
      split <;> exact same

/-- A host write keeps LMEM canonical. -/
theorem hostWrite_memory_wf {s : State} {off : Nat} {d : Word} (hs : Memory.wf s.lmem = true) :
    Memory.wf (s.hostWrite off d).2.lmem = true := by
  unfold State.hostWrite
  split
  · exact hs
  · next p hp =>
    have hplace := placeOf_cases hp
    cases p <;> simp only [State.writePlace] <;> try exact hs
    case cmd => unfold State.writeCmd; split <;> exact hs
    case ctrl =>
      unfold State.writeCtrl
      split
      · rw [softReset_frame]
        exact memory_wf_abort hs
      · dsimp only; split <;> exact hs
    case element k => split <;> exact hs
    case lmem base =>
      split
      · exact hs
      · exact memory_wf_putWord hs hplace.2.2.2.2

/-- While rst is released a delivered write has the effect of the host write (20_memory R61). -/
theorem deliverWrite_released {s : State} (h : s.rst = false) (off : Nat) (d : Word) :
    s.deliverWrite off d = (s.hostWrite off d).2.answer (.write (s.hostWrite off d).1) := by
  simp [State.deliverWrite, h]

/-- While rst is asserted a delivered write gives its answer alone (70_reset R260). -/
theorem deliverWrite_asserted {s : State} (h : s.rst = true) (off : Nat) (d : Word) :
    s.deliverWrite off d = s.answer (.write (s.hostWrite off d).1) := by
  simp [State.deliverWrite, h]

/-- A delivery touches none of the arrivals. -/
theorem deliver_inputs (s : State) (x : Transaction) : (s.deliver x).inputs = s.inputs := by
  cases x with
  | read off => rfl
  | rst b => rfl
  | write off d =>
    cases h : s.rst with
    | true => simp only [State.deliver, deliverWrite_asserted h, State.answer_inputs]
    | false => simp only [State.deliver, deliverWrite_released h, State.answer_inputs, (hostWrite_frame s off d).2.1]

/-- A delivery keeps LMEM canonical. -/
theorem deliver_memory_wf {s : State} (x : Transaction) (hs : Memory.wf s.lmem = true) :
    Memory.wf (s.deliver x).lmem = true := by
  cases x with
  | read off => exact hs
  | rst b => rfl
  | write off d =>
    cases h : s.rst with
    | true =>
      simp only [State.deliver, deliverWrite_asserted h, State.answer_lmem]
      exact hs
    | false =>
      simp only [State.deliver, deliverWrite_released h, State.answer_lmem]
      exact hostWrite_memory_wf hs

end Sys2Proof.Machine
end

