-- ==== Sys2Proof/Laws/LagrTable.lean ====
section
/-! SUPPORT. LAGR from the memory side: what each of its checks answers, in terms of the share table as LMEM shows it (42_lagrange R171). -/

namespace Sys2Proof.Machine

theorem tableCount_lt (s : State) (t : Nat) : s.tableCount t < 256 := (s.lmemAt t).isLt

theorem le16_lt (s : State) (a : Nat) : s.le16 a < 65536 := by
  rw [← toNat_le16]
  exact BitVec.isLt _

/-- The descriptors LAGR holds. -/
def State.tableShares (s : State) (t : Nat) : List Share :=
  (List.range' 0 (s.tableCount t)).map fun k => s.shareAt (t + 4 + 6 * k)

/-- Their IDs. -/
def State.tableIds (s : State) (t : Nat) : List Byte :=
  (List.range (s.tableCount t)).map (s.tableId t)

/-- Their lengths. -/
def State.tableLens (s : State) (t : Nat) : List Half :=
  (List.range' 0 (s.tableCount t)).map fun k => (s.shareAt (t + 4 + 6 * k)).len

theorem tableShares_ids (s : State) (t : Nat) : (s.tableShares t).map (·.id) = s.tableIds t := by
  simp [State.tableShares, State.tableIds, List.range_eq_range', Function.comp_def, shareAt_id]

theorem tableShares_lens (s : State) (t : Nat) : (s.tableShares t).map (·.len) = s.tableLens t := by
  simp [State.tableShares, State.tableLens, Function.comp_def]

theorem tableShares_adrs (s : State) (t : Nat) :
    (s.tableShares t).map (fun sh => sh.adr.toNat) = (List.range (s.tableCount t)).map (s.tableAdr t) := by
  simp [State.tableShares, List.range_eq_range', Function.comp_def, shareAt_adr]

theorem tableIds_get {s : State} {t k : Nat} (h : k < s.tableCount t) : (s.tableIds t)[k]? = some (s.tableId t k) := by
  simp [State.tableIds, h]

theorem tableIds_length (s : State) (t : Nat) : (s.tableIds t).length = s.tableCount t := by
  simp [State.tableIds]

/-- The checks and the computation of LAGR once the descriptors are held. -/
def State.lagrFrom (s : State) (out : Half) (shares : List Share) : Except Stop State := do
  checkDistinct (shares.map (·.id))
  checkLengths (shares.map (·.len)) ((shares.map fun sh : Share => sh.len).headD 0)
  checkPayloads ((shares.map fun sh : Share => sh.len).headD 0).toNat shares
  requireRange out.toNat ((shares.map fun sh : Share => sh.len).headD 0).toNat
  let bs ← basisList (shares.map (·.id)) 0 (shares.map (·.id))
  State.lanes ((shares.map (·.adr.toNat)).zip bs) out.toNat 0 ((shares.map fun sh : Share => sh.len).headD 0).toNat s

/-- The detail word of a table that does not lie in LMEM. -/
theorem execLagr_of_table_not {addr : Addr} {s : State} (h1 : addr.toNat + 4 ≤ 4096)
    (h2 : s.tableCount addr.toNat ≠ 0) (h3 : ¬ RangeOk addr.toNat (4 + 6 * s.tableCount addr.toNat)) :
    execLagr addr s = .next (s.recordError .addressRange (rangeInfo (4 + 6 * s.tableCount addr.toNat) addr.toNat)) := by
  have hc : (s.lmemAt addr.toNat == 0x00) = false := by
    simp only [beq_eq_false_iff_ne]
    intro h
    exact h2 (by simp [State.tableCount, h])
  have h0 : (s.lmemAt addr.toNat).toNat = s.tableCount addr.toNat := rfl
  simp only [execLagr, requireRange_of_ok (Or.inr h1 : RangeOk addr.toNat 4), bind_ok,
    memRead_of_lt (show addr.toNat < 4096 by omega), memRead16_of_lt (show addr.toNat + 2 + 1 < 4096 by omega), hc,
    raiseIf_false, h0, requireRange_of_not h3, bind_error, complete_raised]

/-- LAGR on a readable table: the checks that follow the reading of the descriptors, and the computation. -/
theorem execLagr_of_table {addr : Addr} {s : State} (h : s.TableReadable addr.toNat) :
    execLagr addr s = complete s
      (s.lagrFrom (s.lmemAt (addr.toNat + 3) ++ s.lmemAt (addr.toNat + 2)) (s.tableShares addr.toNat)) := by
  obtain ⟨h1, h2, h3⟩ := h
  have hc : (s.lmemAt addr.toNat == 0x00) = false := by
    simp only [beq_eq_false_iff_ne]
    intro h
    exact h2 (by simp [State.tableCount, h])
  have h0 : (s.lmemAt addr.toNat).toNat = s.tableCount addr.toNat := rfl
  simp only [execLagr, requireRange_of_ok (Or.inr h1 : RangeOk addr.toNat 4), bind_ok,
    memRead_of_lt (show addr.toNat < 4096 by omega), memRead16_of_lt (show addr.toNat + 2 + 1 < 4096 by omega), hc,
    raiseIf_false, h0, requireRange_of_ok (Or.inr h3 : RangeOk _ _),
    readShares_of_le (s := s) (t := addr.toNat) (j := 0) (n := s.tableCount addr.toNat) (by omega)]
  rfl

/-- Distinct IDs pass. -/
theorem checkDistinct_of_distinct {s : State} {t : Nat} (h : s.IdsDistinct t) :
    checkDistinct (s.tableIds t) = .ok () := by
  have : firstDuplicate [] (s.tableIds t) = none := by
    rw [firstDuplicate_eq_none]
    intro m _ hm j hj
    simp only [List.nil_append, tableIds_length] at hm ⊢
    rw [tableIds_get (by omega), tableIds_get hm]
    simpa using h m hm j hj
  simp [checkDistinct, this]

/-- The first equal pair, in order of increasing m and then of increasing j, is the one raised. -/
theorem checkDistinct_of_first {s : State} {t j m : Nat} (hm : m < s.tableCount t) (hj : j < m)
    (he : s.tableId t j = s.tableId t m)
    (hf : ∀ m' < s.tableCount t, ∀ j' < m', (m' < m ∨ (m' = m ∧ j' < j)) → s.tableId t j' ≠ s.tableId t m') :
    checkDistinct (s.tableIds t) = .error (.raised .duplicateShareId (pairInfo j m)) := by
  have hpair : (s.tableIds t)[j]? = (s.tableIds t)[m]? := by
    rw [tableIds_get (by omega), tableIds_get hm, he]
  cases hd : firstDuplicate [] (s.tableIds t) with
  | none =>
    rw [firstDuplicate_eq_none] at hd
    simp only [List.nil_append, tableIds_length] at hd
    exact absurd hpair (hd m (Nat.zero_le _) hm j hj)
  | some p =>
    obtain ⟨j2, m2⟩ := p
    obtain ⟨-, a2, a3, a4, a5, a6⟩ := firstDuplicate_eq_some hd
    simp only [List.nil_append, tableIds_length] at a2 a4 a5 a6
    rw [tableIds_get (by omega), tableIds_get a2, Option.some.injEq] at a4
    have e1 : m2 = m := by
      rcases Nat.lt_trichotomy m2 m with h | h | h
      · exact absurd a4 (hf m2 a2 j2 a3 (.inl h))
      · exact h
      · exact absurd hpair (a6 m (Nat.zero_le _) h j hj)
    subst e1
    have e2 : j2 = j := by
      rcases Nat.lt_trichotomy j2 j with h | h | h
      · exact absurd a4 (hf m2 a2 j2 a3 (.inr ⟨rfl, h⟩))
      · exact h
      · exact absurd hpair (a5 j h)
    subst e2
    simp [checkDistinct, hd]

/-- The length LAGR compares with is LEN[0]. -/
theorem tableLens_head {s : State} {t : Nat} (h : s.tableCount t ≠ 0) :
    ((s.tableLens t).headD 0).toNat = s.tableLen t 0 := by
  obtain ⟨k, hk⟩ := Nat.exists_eq_succ_of_ne_zero h
  simp only [State.tableLens, hk, List.range'_succ, List.map_cons, List.headD_cons]
  exact shareAt_len s t 0

/-- Equal lengths pass. -/
theorem checkLengths_of_equal {s : State} {t : Nat} (h0 : s.tableCount t ≠ 0) (h : s.LengthsEqual t) :
    checkLengths (s.tableLens t) ((s.tableLens t).headD 0) = .ok () := by
  have : (s.tableLens t).findIdx? (fun l => l != (s.tableLens t).headD 0) = none := by
    rw [List.findIdx?_eq_none_iff]
    intro x hx
    rw [State.tableLens, List.mem_map] at hx
    obtain ⟨k, hk, rfl⟩ := hx
    rw [List.mem_range'_1] at hk
    rw [bne_eq_false_iff_eq]
    exact BitVec.eq_of_toNat_eq (by rw [shareAt_len, h k (by omega), tableLens_head h0])
  rw [checkLengths, this]

/-- The smallest j whose length differs is the one raised. -/
theorem checkLengths_of_first {s : State} {t j : Nat} (hj : j < s.tableCount t)
    (hne : s.tableLen t j ≠ s.tableLen t 0) (hf : ∀ k < j, s.tableLen t k = s.tableLen t 0) :
    checkLengths (s.tableLens t) ((s.tableLens t).headD 0)
      = .error (.raised .mismatchedShareLength (BitVec.ofNat 32 j)) := by
  have h0 : s.tableCount t ≠ 0 := by omega
  have hlen : ∀ k (hk : k < (s.tableLens t).length), ((s.tableLens t)[k]).toNat = s.tableLen t k := by
    intro k hk
    rw [← shareAt_len]
    simp [State.tableLens]
  have : (s.tableLens t).findIdx? (fun l => l != (s.tableLens t).headD 0) = some j := by
    rw [List.findIdx?_eq_some_iff_getElem]
    refine ⟨by simpa [State.tableLens] using hj, ?_, ?_⟩
    · rw [bne_iff_ne]
      intro h
      apply hne
      rw [← hlen j (by simpa [State.tableLens] using hj), h, tableLens_head h0]
    · intro k hk
      rw [Bool.not_eq_true, bne_eq_false_iff_eq]
      exact BitVec.eq_of_toNat_eq (by rw [hlen, hf k hk, tableLens_head h0])
  rw [checkLengths, this]

/-- Payloads that all lie in LMEM pass. -/
theorem checkPayloads_table {s : State} {t len : Nat} (h : ∀ j < s.tableCount t, RangeOk (s.tableAdr t j) len) :
    checkPayloads len (s.tableShares t) = .ok () := by
  apply checkPayloads_of_ok
  intro x hx
  rw [State.tableShares, List.mem_map] at hx
  obtain ⟨k, hk, rfl⟩ := hx
  rw [List.mem_range'_1] at hk
  rw [shareAt_adr]
  exact h k (by omega)

/-- The first payload that does not is the one raised. -/
theorem checkPayloads_first {s : State} {t len j : Nat} (hj : j < s.tableCount t)
    (hk : ∀ k < j, RangeOk (s.tableAdr t k) len) (hn : ¬ RangeOk (s.tableAdr t j) len) :
    checkPayloads len (s.tableShares t) = .error (.raised .addressRange (rangeInfo len (s.tableAdr t j))) := by
  obtain ⟨d, hd⟩ := Nat.exists_eq_add_of_lt hj
  have hsplit : List.range' 0 (s.tableCount t) = List.range' 0 j ++ j :: List.range' (j + 1) d := by
    have h := (List.range'_append (s := 0) (m := j) (n := d + 1) (step := 1)).symm
    rw [hd, ← List.range'_succ, show j + d + 1 = j + (d + 1) by omega]
    simpa using h
  rw [State.tableShares, hsplit, List.map_append, List.map_cons, checkPayloads_of_not, shareAt_adr]
  · intro x hx
    rw [List.mem_map] at hx
    obtain ⟨k, hk', rfl⟩ := hx
    rw [List.mem_range'_1] at hk'
    rw [shareAt_adr]
    exact hk k (by omega)
  · rw [shareAt_adr]
    exact hn

/-- What OUT is as a number. -/
theorem tableOut_eq (s : State) (t : Nat) : (s.lmemAt (t + 3) ++ s.lmemAt (t + 2)).toNat = s.tableOut t :=
  toNat_le16 s (t + 2)

/-- The basis coefficients of the table, where no denominator is 0x00. -/
theorem basisList_table {s : State} {t : Nat}
    (h : ∀ j < s.tableCount t, basisDen (s.tableId t) (s.tableCount t) j ≠ 0x00) :
    basisList (s.tableIds t) 0 (s.tableIds t)
      = .ok ((List.range (s.tableCount t)).map (basisAt (s.tableId t) (s.tableCount t))) := by
  have hget : ∀ k < s.tableCount t, (s.tableIds t).getD k 0 = s.tableId t k := by
    intro k hk
    rw [List.getD_eq_getElem?_getD, tableIds_get hk, Option.getD_some]
  have hprod : ∀ k < s.tableCount t, basisProducts ((s.tableIds t).getD k 0) (0 + k) 0 (s.tableIds t) 0x01 0x01
      = (basisNum (s.tableId t) (s.tableCount t) k, basisDen (s.tableId t) (s.tableCount t) k) := by
    intro k hk
    rw [Nat.zero_add, basisProducts_all, tableIds_length, hget k hk]
    refine Prod.ext (fieldProd_congr fun m hm => ?_) (fieldProd_congr fun m hm => ?_) <;> simp only [hget m hm]
  rw [basisList_of_ne]
  · rw [tableIds_length]
    congr 1
    apply List.map_congr_left
    intro k hk
    rw [List.mem_range] at hk
    simp only [hprod k hk]
    rfl
  · intro k hk
    have hk' : k < s.tableCount t := by rwa [tableIds_length] at hk
    have h1 := hprod k hk'
    rw [List.getD_eq_getElem?_getD, List.getElem?_eq_getElem hk, Option.getD_some] at h1
    rw [h1]
    exact h k hk'

/-- The sum of a byte position over the table's shares is the field sum over them. -/
theorem laneValue_table {n i : Nat} (f : Nat → Byte) (adr : Nat → Nat) (b : Nat → Byte) :
    laneValue f i (((List.range n).map adr).zip ((List.range n).map b))
      = fieldSum n fun j => gmul (f (adr j + i)) (b j) := by
  rw [fieldSum_eq_foldl, laneValue, List.zip_map', List.foldl_map]
  rfl

end Sys2Proof.Machine
end

