-- ==== Sys2Proof/Laws/PerInstr.lean ====
section
/-! SUPPORT. One lemma per command: the fields it is assembled from are a legal command (30_encoding R106, R108). -/

/-- The fields of the command are well-formed: its opcode is assigned and every must-be-0 field is 0. -/
def Sys2Proof.Laws.FieldsLegal.Statement (i : Sys2Proof.Instr) : Prop :=
  Sys2Proof.instrWellFormed i = true

namespace Sys2Proof.Laws.FieldsLegal

theorem fadd (rd rs1 rs2 : Reg) : Statement (.fadd rd rs1 rs2) := by
  simp [Statement, instrWellFormed, instrFields, Fields.wellFormed]

theorem fsub (rd rs1 rs2 : Reg) : Statement (.fsub rd rs1 rs2) := by
  simp [Statement, instrWellFormed, instrFields, Fields.wellFormed]

theorem fmul (rd rs1 rs2 : Reg) : Statement (.fmul rd rs1 rs2) := by
  simp [Statement, instrWellFormed, instrFields, Fields.wellFormed]

theorem finv (rd rs1 : Reg) : Statement (.finv rd rs1) := by
  simp [Statement, instrWellFormed, instrFields, Fields.wellFormed]

theorem fdiv (rd rs1 rs2 : Reg) : Statement (.fdiv rd rs1 rs2) := by
  simp [Statement, instrWellFormed, instrFields, Fields.wellFormed]

theorem peval (rd rs1 rs2 : Reg) (addr : Addr) : Statement (.peval rd rs1 rs2 addr) := by
  simp [Statement, instrWellFormed, instrFields, Fields.wellFormed]

theorem lagr (addr : Addr) : Statement (.lagr addr) := by
  simp [Statement, instrWellFormed, instrFields, Fields.wellFormed]

theorem ldi (rd : Reg) (imm8 : Byte) : Statement (.ldi rd imm8) := by
  have h : (imm8.setWidth 12).extractLsb' 8 4 = 0#4 := by
    apply BitVec.eq_of_getLsbD_eq
    intro k hk
    simp
  simp [Statement, instrWellFormed, instrFields, Fields.wellFormed, h]

theorem ld (rd : Reg) (addr : Addr) : Statement (.ld rd addr) := by
  simp [Statement, instrWellFormed, instrFields, Fields.wellFormed]

theorem st (rs1 : Reg) (addr : Addr) : Statement (.st rs1 addr) := by
  simp [Statement, instrWellFormed, instrFields, Fields.wellFormed]

theorem wipe : Statement .wipe := by
  simp [Statement, instrWellFormed, instrFields, Fields.wellFormed]

end Sys2Proof.Laws.FieldsLegal
end

