-- ==== Sys2Proof/Laws/Step.lean ====
section
/-! SUPPORT. Everything a step can do, said once: complete the pending word, deliver the next arrival, or idle. -/

namespace Sys2Proof.Machine

/-- The pending word completes when its completion is next. -/
theorem step_completes {s : State} {c : Word} (h : s.CompletesNext c) : step s = completeWord c s := by
  simp [step, unitStep, h.1, h.2]

/-- Otherwise the next arrival takes effect. -/
theorem step_receives {s : State} {x : Transaction} {rest : List Arrival} (h : s.ReceivesNext x rest) :
    step s = .next ({ s with inputs := rest }.deliver x) := by
  obtain ⟨hp, late, hi⟩ := h
  have hr : s.receive = { s with inputs := rest }.deliver x := by simp [State.receive, hi]
  rcases hp with hp | hp
  · simp [step, unitStep, hp, hr]
  · cases hc : s.pend with
    | none => simp [step, unitStep, hc, hr]
    | some c => simp [step, unitStep, hc, hp, hr]

/-- With nothing to arrive and PEND empty the state holds. -/
theorem step_idle {s : State} (h : s.Settled) : step s = .next s := by
  simp [step, unitStep, h.2, State.receive, h.1]

/-- EVERYTHING A STEP CAN DO. -/
theorem step_cases (s : State) :
    (∃ c, s.CompletesNext c) ∨ (∃ x rest, s.ReceivesNext x rest) ∨ s.Settled := by
  cases hp : s.pend with
  | none =>
    cases hi : s.inputs with
    | nil => exact .inr (.inr ⟨hi, hp⟩)
    | cons a rest => exact .inr (.inl ⟨a.what, rest, .inl hp, a.afterCompletion, hi⟩)
  | some c =>
    by_cases hn : s.completesNow = true
    · exact .inl ⟨c, hp, hn⟩
    · have hn' : s.completesNow = false := by simpa using hn
      cases hi : s.inputs with
      | nil => simp [State.completesNow, hi] at hn
      | cons a rest => exact .inr (.inl ⟨a.what, rest, .inr hn', a.afterCompletion, hi⟩)

end Sys2Proof.Machine
end

