-- ==== Sys2Proof/Tests/Slice0.lean ====
section
/-! SUPPORT. Tests on the spec's own vectors (95_test_vectors, named in each comment), and for every statement with hypotheses a witness that meets them. -/

namespace Sys2Proof.Tests

open Sys2Proof.Machine

-- One thread: these theorems' kernel checks would each reserve a stack.
set_option Elab.async false

/-- The cells of consecutive bytes from an address. -/
def cellsAt : Nat → List Byte → List Host.Cell
  | _, [] => []
  | a, b :: rest => (a, b) :: cellsAt (a + 1) rest

/-- Reset, with the listed registers and LMEM cells. -/
def st (regs : List (Reg × Byte)) (cells : List Host.Cell) : State :=
  { regs.foldl (fun s p => s.writeE p.1 p.2) State.reset with lmem := cells }

/-- The state whose next step runs the word w. -/
def placed (w : Word) (s : State) : State := s.withFetchWord 32 w.toNat

/-- A field of the next state. -/
def after {α : Type} (f : State → α) (o : Host.Outcome State Fault Refusal) : Option α :=
  match o with
  | .next t => some (f t)
  | .fault _ => none
  | .refused _ => none

/-- One register after the command word w. -/
def eAfter (w : Word) (s : State) (r : Reg) : Option Byte := after (·.readE r) (step (placed w s))

/-- LMEM bytes after the command word w. -/
def memAfter (w : Word) (s : State) (as : List Nat) : Option (List Byte) :=
  after (fun t => as.map t.lmemAt) (step (placed w s))

/-- STATUS and ERRINFO after the command word w. -/
def statusAfter (w : Word) (s : State) : Option (Word × Word) :=
  after (fun t => (t.statusWord, t.errInfo)) (step (placed w s))

/-- The next state of an outcome that has one. -/
def nextOf (o : Host.Outcome State Fault Refusal) : State := (after id o).getD State.reset

theorem eq_nextOf {o : Host.Outcome State Fault Refusal} (h : (after id o).isSome = true) : o = .next (nextOf o) := by
  cases o <;> simp_all [after, nextOf]

/-! ### The opcode map refuses each of its ill-formed rows (V-E20, V-E24 to V-E30) -/

theorem test_wellFormed_unassigned : Fields.wellFormed ⟨0x00, 0, 0, 0, 0⟩ = false ∧ Fields.wellFormed ⟨0x06, 0, 0, 0, 0⟩ = false
    ∧ Fields.wellFormed ⟨0xFF, 0, 0, 0, 0⟩ = false := by decide

theorem test_wellFormed_fadd : Fields.wellFormed ⟨0x01, 3, 1, 2, 0x100⟩ = false := by decide

theorem test_wellFormed_fsub : Fields.wellFormed ⟨0x02, 3, 1, 2, 0x001⟩ = false := by decide

theorem test_wellFormed_fmul : Fields.wellFormed ⟨0x03, 3, 1, 2, 0x800⟩ = false := by decide

theorem test_wellFormed_finv : Fields.wellFormed ⟨0x04, 4, 2, 1, 0⟩ = false ∧ Fields.wellFormed ⟨0x04, 4, 2, 0, 1⟩ = false := by
  decide

theorem test_wellFormed_fdiv : Fields.wellFormed ⟨0x05, 6, 3, 2, 0x010⟩ = false := by decide

theorem test_wellFormed_peval : Fields.wellFormed ⟨0x08, 15, 15, 15, 0xFFF⟩ = true := by decide

theorem test_wellFormed_lagr : Fields.wellFormed ⟨0x0C, 1, 0, 0, 0⟩ = false ∧ Fields.wellFormed ⟨0x0C, 0, 1, 0, 0⟩ = false
    ∧ Fields.wellFormed ⟨0x0C, 0, 0, 1, 0⟩ = false := by decide

theorem test_wellFormed_ldi : Fields.wellFormed ⟨0x10, 1, 0, 0, 0x100⟩ = false ∧ Fields.wellFormed ⟨0x10, 1, 1, 0, 0⟩ = false
    ∧ Fields.wellFormed ⟨0x10, 1, 0, 1, 0⟩ = false := by decide

theorem test_wellFormed_ld : Fields.wellFormed ⟨0x11, 0, 1, 0, 0⟩ = false ∧ Fields.wellFormed ⟨0x11, 0, 0, 1, 0⟩ = false := by
  decide

theorem test_wellFormed_st : Fields.wellFormed ⟨0x12, 0, 1, 1, 0⟩ = false ∧ Fields.wellFormed ⟨0x12, 1, 1, 0, 0⟩ = false := by
  decide

theorem test_wellFormed_wipe : Fields.wellFormed ⟨0x1F, 1, 0, 0, 0⟩ = false ∧ Fields.wellFormed ⟨0x1F, 0, 1, 0, 0⟩ = false
    ∧ Fields.wellFormed ⟨0x1F, 0, 0, 1, 0⟩ = false ∧ Fields.wellFormed ⟨0x1F, 0, 0, 0, 1⟩ = false := by decide

/-! ### Decoding and encoding, one word a constructor (V-E1 to V-E19), and illegal words (V-E20 to V-E30) -/

theorem test_decode_fadd : decode 0x00021301 = some (.fadd 3 1 2) := by decide
theorem test_decode_fsub : decode 0x00021302 = some (.fsub 3 1 2) := by decide
theorem test_decode_fmul : decode 0x00021303 = some (.fmul 3 1 2) := by decide
theorem test_decode_finv : decode 0x00003404 = some (.finv 4 3) ∧ decode 0x0000F004 = some (.finv 0 15) := by decide
theorem test_decode_fdiv : decode 0x00023605 = some (.fdiv 6 3 2) ∧ decode 0x000FFF05 = some (.fdiv 15 15 15) := by decide
theorem test_decode_peval : decode 0x10021408 = some (.peval 4 1 2 0x100)
    ∧ decode 0xFFFDEF08 = some (.peval 15 14 13 0xFFF) := by decide
theorem test_decode_lagr : decode 0x3000000C = some (.lagr 0x300) ∧ decode 0xFFF0000C = some (.lagr 0xFFF) := by decide
theorem test_decode_ldi : decode 0x05700110 = some (.ldi 1 0x57) ∧ decode 0x0FF00F10 = some (.ldi 15 0xFF)
    ∧ decode 0x00000310 = some (.ldi 3 0) := by decide
theorem test_decode_ld : decode 0x01000411 = some (.ld 4 0x010) ∧ decode 0xFFF00F11 = some (.ld 15 0xFFF) := by decide
theorem test_decode_st : decode 0x01104012 = some (.st 4 0x011) ∧ decode 0xFFF0F012 = some (.st 15 0xFFF) := by decide
theorem test_decode_wipe : decode 0x0000001F = some .wipe := by decide

theorem test_decode_illegal : [0x00000000, 0x00000006, 0x000000FF, 0xFFFFFFFF, 0x10021301, 0x00012404, 0x10000110, 0x00001011,
    0x00011012, 0x0000010C, 0x0000011F].all (fun w => (decode w).isNone) = true := by decide

theorem test_encode : encode (.fsub 3 1 2) = 0x00021302 ∧ encode (.finv 4 3) = 0x00003404 ∧ encode (.peval 15 14 13 0xFFF) = 0xFFFDEF08
    ∧ encode (.lagr 0x300) = 0x3000000C ∧ encode (.ldi 15 0xFF) = 0x0FF00F10 ∧ encode (.st 4 0x011) = 0x01104012
    ∧ encode .wipe = 0x0000001F := by decide

/-! ### Field commands (V-F1 to V-F24) -/

theorem test_gmul : [gmul 0x57 0x83, gmul 0x02 0x80, gmul 0x80 0x80, gmul 0xFF 0xFF, gmul 0x0E 0x0B]
    = [0xC1, 0x1B, 0x9A, 0x13, 0x62] := by decide +kernel

theorem test_ginv : [0x01, 0x02, 0x03, 0x53, 0x80, 0xFF, 0xFE].map ginv = [0x01, 0x8D, 0xF6, 0xCA, 0x83, 0x1C, 0x41] := by
  decide +kernel

/-- V-F6. -/
theorem test_fadd : eAfter 0x00021301 (st [(1, 0x57), (2, 0x83)] []) 3 = some 0xD4
    ∧ statusAfter 0x00021301 (st [(1, 0x57), (2, 0x83)] []) = some (0x00000002, 0) := by decide +kernel

/-- V-F7. -/
theorem test_fsub : eAfter 0x00021302 (st [(1, 0x57), (2, 0x83)] []) 3 = some 0xD4 := by decide +kernel

/-- V-F9. -/
theorem test_fmul : eAfter 0x00021303 (st [(1, 0x57), (2, 0x83)] []) 3 = some 0xC1 := by decide +kernel

/-- V-F11: the destination is both sources. -/
theorem test_fmul_in_place : eAfter 0x00011103 (st [(1, 0x80)] []) 1 = some 0x9A := by decide +kernel

/-- V-F14: the destination is the source. -/
theorem test_finv_in_place : eAfter 0x00003304 (st [(3, 0x02)] []) 3 = some 0x8D := by decide +kernel

/-- V-F16. -/
theorem test_finv_zero : eAfter 0x00009204 (st [(2, 0x11)] []) 2 = some 0x11
    ∧ statusAfter 0x00009204 (st [(2, 0x11)] []) = some (0x00000204, 0x00000009) := by decide +kernel

/-- V-F17. -/
theorem test_fdiv : eAfter 0x00023605 (st [(3, 0xC1), (2, 0x83)] []) 6 = some 0x57 := by decide +kernel

/-- V-F19: both operands are 0x00. -/
theorem test_fdiv_zero : statusAfter 0x00023605 (st [] []) = some (0x00000204, 0x00000002) := by decide +kernel

/-! ### PEVAL (V-P3, V-P11) -/

/-- The coefficients 2A 5A C3 at 0x100, the point in E1 and the count in E2. -/
def coefficients (x n : Byte) : State := st [(1, x), (2, n)] (cellsAt 0x100 [0x2A, 0x5A, 0xC3, 0x00, 0x00])

/-- V-P3. -/
theorem test_peval : eAfter 0x10021408 (coefficients 0x02 3) 4 = some 0xBF := by decide +kernel

/-- V-P11. -/
theorem test_peval_range : statusAfter 0xFFF21408 (coefficients 0x02 2) = some (0x00000604, 0x00020FFF) := by decide +kernel

/-! ### LAGR (V-L1, V-L17) -/

/-- V-L1: shares 1 and 3 of one byte at 0x010 and 0x011, output at 0x020. -/
def vl1 : State := st [] (cellsAt 0 [2, 0, 0x20, 0, 1, 0, 1, 0, 0x10, 0, 3, 0, 1, 0, 0x11, 0, 0x70, 0xC4])

theorem test_lagr : memAfter 0x0000000C vl1 [0x020] = some [0x2A] ∧ statusAfter 0x0000000C vl1 = some (0x00000002, 0) := by
  decide +kernel

/-- V-L17: the output lies over a payload that is still to be read. -/
def vl17 : State := st [] (cellsAt 0 [2, 0, 0x01, 0x01, 1, 0, 2, 0, 0x00, 0x01, 2, 0, 2, 0, 0x10, 0x01]
  ++ cellsAt 0x100 [0x10, 0x77] ++ cellsAt 0x110 [0x40, 0x50])

theorem test_lagr_overlap : memAfter 0x0000000C vl17 [0x100, 0x101, 0x102] = some [0x10, 0x20, 0xF9] := by decide +kernel

/-- V-L15: the share ID 0x00. -/
def vl15 : State := st [] (cellsAt 0 [2, 0, 0x20, 0, 0, 0, 1, 0, 0x10, 0, 7, 0, 1, 0, 0x11, 0, 0x33, 0x99])

/-- V-L14: the empty secret, with payloads and output outside LMEM. -/
def vl14 : State := st [] (cellsAt 0 [2, 0, 0xFF, 0xFF, 1, 0, 0, 0, 0xFF, 0xFF, 2, 0, 0, 0, 0x00, 0xF0])

/-- V-L3: one share. -/
def vl3 : State := st [] (cellsAt 0 [1, 0, 0x20, 0, 1, 0, 1, 0, 0x10, 0] ++ [(0x010, 0x70)])

/-- V-L6: no share. -/
def vl6 : State := st [] (cellsAt 0 [0, 0, 0, 0])

/-- V-L9: IDs 1, 2, 2 and lengths 1, 2, 1. -/
def vl9 : State := st [] (cellsAt 0 [3, 0, 0x20, 0, 1, 0, 1, 0, 0x10, 0, 2, 0, 2, 0, 0x11, 0, 2, 0, 1, 0, 0x12, 0])

/-- V-L8: IDs 1, 2, 3 and lengths 1, 1, 2. -/
def vl8 : State := st [] (cellsAt 0 [3, 0, 0x20, 0, 1, 0, 1, 0, 0x10, 0, 2, 0, 1, 0, 0x11, 0, 3, 0, 2, 0, 0x12, 0])

/-- V-L12 with the smallest failing address: a payload of one byte at 0x1000. -/
def vl12 : State := st [] (cellsAt 0 [1, 0, 0x20, 0, 1, 0, 1, 0, 0x00, 0x10])

/-- V-L13: an output of two bytes at 0xFFF. -/
def vl13 : State := st [] (cellsAt 0 [1, 0, 0xFF, 0x0F, 1, 0, 2, 0, 0x10, 0] ++ cellsAt 0x010 [0x70, 0x71])

/-- A table of one share at 0xFF7 that ends one byte past LMEM. -/
def tableAtEdge : State := st [] (cellsAt 0xFF7 [1, 0, 0x20, 0])

theorem test_lagr_errors : statusAfter 0x0000000C vl6 = some (0x00000304, 0) ∧ statusAfter 0x0000000C vl9 = some (0x00000404, 0x00000201)
    ∧ statusAfter 0x0000000C vl8 = some (0x00000504, 0x00000002)
    ∧ statusAfter 0x0000000C vl13 = some (0x00000604, 0x00020FFF) := by decide +kernel

/-! ### Data movement and WIPE (V-M2, V-M5, V-M6, V-M8) -/

theorem test_ldi : eAfter 0x0FF00F10 (st [] []) 15 = some 0xFF := by decide +kernel

theorem test_ld : eAfter 0xFFF00F11 (st [] [(0xFFF, 0x5A)]) 15 = some 0x5A := by decide +kernel

theorem test_st : memAfter 0x01104012 (st [(4, 0x9E)] (cellsAt 0x010 [0x11, 0x22, 0x33, 0x44])) [0x010, 0x011, 0x012, 0x013]
    = some [0x11, 0x9E, 0x33, 0x44] := by decide +kernel

theorem test_wipe : eAfter 0x0000001F (st [(15, 0x77)] [(0xFFF, 0x5A)]) 15 = some 0x00
    ∧ memAfter 0x0000001F (st [(15, 0x77)] [(0xFFF, 0x5A)]) [0x000, 0xFFF] = some [0x00, 0x00] := by decide +kernel

/-- V-M10. -/
theorem test_illegal : eAfter 0x0000011F (st [(15, 0x77)] []) 15 = some 0x77
    ∧ statusAfter 0x0000011F (st [(15, 0x77)] []) = some (0x00000104, 0) := by decide +kernel

/-! ### The host port (V-H1 to V-H25) -/

/-- V-H11 to V-H14: LDI e5, 0xA5 accepted and still pending, LMEM[0..3] = 11 22 33 44. -/
def busyState : State := (st [] (cellsAt 0 [0x11, 0x22, 0x33, 0x44])).accept 0x0A500510

/-- V-H1 to V-H3. -/
theorem test_host_offsets : State.reset.hostRead 0x000 = (.ok, 0x47463801) ∧ State.reset.hostRead 0x002 = (.error, 0)
    ∧ State.reset.hostRead 0x2000 = (.error, 0) ∧ State.reset.hostRead 0x014 = (.ok, 0) := by decide +kernel

/-- V-H6. -/
theorem test_host_ctrl : (State.reset.hostWrite 0x00C 0xFFFFFFF9).2.hostRead 0x00C = (.ok, 0x00000001) := by decide +kernel

/-- V-H9 and V-M6's host read. -/
theorem test_host_windows : (State.reset.hostWrite 0x048 0x12345678).2.hostRead 0x048 = (.ok, 0x00000078)
    ∧ (st [] (cellsAt 0x010 [0x11, 0x9E, 0x33, 0x44])).hostRead 0x1010 = (.ok, 0x44339E11) := by decide +kernel

/-- V-H12 and V-H13. -/
theorem test_host_busy_read : busyState.hostRead 0x054 = (.ok, 0) ∧ busyState.hostRead 0x1000 = (.ok, 0)
    ∧ busyState.hostRead 0x004 = (.ok, 0x0A500510) ∧ busyState.hostRead 0x008 = (.ok, 0x00000001) := by decide +kernel

/-- V-H14. -/
theorem test_host_busy_write : busyState.hostWrite 0x1000 0 = (.ok, { busyState with ovr := true })
    ∧ (busyState.hostWrite 0x004 0x00100610).2.hostRead 0x008 = (.ok, 0x00000009) := by decide +kernel

/-- V-H20: IE and DONE raise irq. -/
theorem test_irq : after State.irq (step (placed 0x00000704 { st [(0, 0x03)] [] with ie := true })) = some true := by decide +kernel

/-- V-H23: a soft reset aborts LDI and keeps LMEM. -/
theorem test_soft_reset : (busyState.hostWrite 0x00C 0x4).2.hostRead 0x1000 = (.ok, 0x44332211)
    ∧ (busyState.hostWrite 0x00C 0x4).2.hostRead 0x054 = (.ok, 0) := by decide +kernel

/-- While rst is asserted a CMD write starts nothing (70_reset R260). -/
theorem test_asserted_reset : step { State.reset with rst := true, inputs := [⟨.write 0x004 0x0000001F, false⟩] }
    = .next { State.reset with rst := true, responses := [.write .ok] } := by rfl

/-- V-H25: SRST wins over IE and CLR. -/
theorem test_soft_reset_wins : ((st [(9, 0x77)] []).hostWrite 0x00C 0x7).2.hostRead 0x00C = (.ok, 0)
    ∧ ((st [(9, 0x77)] []).hostWrite 0x00C 0x7).2.hostRead 0x064 = (.ok, 0) := by decide +kernel

/-! ### Witnesses: for every statement with hypotheses, values that meet them, one a clause -/

theorem witness_EncodeDecodeRoundTrip : decode 0xFFFDEF08 = some (.peval 15 14 13 0xFFF) := by decide

theorem witness_FieldAxiomsHold : gmul 0xA5 0x00 = 0x00 ∧ (0xFF : Byte) ≠ 0x00 := by decide +kernel

theorem witness_InverseIsPower254AndUnique : (0xFF : Byte) ≠ 0x00 := by decide +kernel

/-- Words with and without a nonzero must-be-0 field, for the word clauses of the rules of single commands. -/
theorem witness_WordMeans : ((0 : BitVec 12) = 0 ∧ ¬ (0x100 : BitVec 12) = 0)
    ∧ (((0 : Reg) = 0 ∧ (0 : BitVec 12) = 0) ∧ ¬ ((1 : Reg) = 0 ∧ (0 : BitVec 12) = 0))
    ∧ ((0 : Reg) = 0 ∧ (0 : Reg) = 0 ∧ (0x0FF : BitVec 12).toNat < 256)
    ∧ ¬ ((0 : Reg) = 0 ∧ (0 : Reg) = 0 ∧ (0x100 : BitVec 12).toNat < 256) := by decide

theorem witness_FinvRule : (st [(3, 0x53)] []).readE 3 ≠ 0x00 ∧ (st [] []).readE 9 = 0x00 := by decide +kernel

theorem witness_FdivRule : (st [(2, 0x83)] []).readE 2 ≠ 0x00 ∧ (st [(3, 0x37)] []).readE 2 = 0x00 := by decide +kernel

/-- In range up to the last byte of LMEM, out of range by one. -/
theorem witness_PevalHornerRule : RangeOk (0xF01 : Addr).toNat ((st [(2, 0xFF)] []).readE 2).toNat
    ∧ RangeOk (0xFFF : Addr).toNat ((st [] []).readE 2).toNat
    ∧ ¬ RangeOk (0xF02 : Addr).toNat ((st [(2, 0xFF)] []).readE 2).toNat := by decide +kernel

theorem witness_PevalDirectPowers : RangeOk (0x100 : Addr).toNat ((coefficients 0x02 3).readE 2).toNat := by decide +kernel

theorem witness_PevalCornerCases : (coefficients 0x02 0).readE 2 = 0x00
    ∧ (RangeOk (0x100 : Addr).toNat ((coefficients 0x00 3).readE 2).toNat ∧ (coefficients 0x00 3).readE 2 ≠ 0x00
      ∧ (coefficients 0x00 3).readE 1 = 0x00)
    ∧ (coefficients 0xF0 1).readE 2 = 0x01
    ∧ (RangeOk (0x100 : Addr).toNat ((coefficients 0x01 3).readE 2).toNat ∧ (coefficients 0x01 3).readE 1 = 0x01)
    ∧ (coefficients 0x02 0xFF).readE 2 = 0xFF := by decide +kernel

/-- V-P8: two trailing zeros. -/
theorem witness_PevalCornerCases_trailing : (1 : Reg) ≠ 2 ∧ (3 : Byte).toNat ≤ (5 : Byte).toNat
    ∧ RangeOk (0x100 : Addr).toNat (5 : Byte).toNat
    ∧ ∀ i < (5 : Byte).toNat, (3 : Byte).toNat ≤ i → (coefficients 0x02 3).lmemAt ((0x100 : Addr).toNat + i) = 0x00 := by
  decide +kernel

/-- V-L10, the table that ends one byte past LMEM, V-L12, V-L13 and V-L14. -/
theorem witness_LagrAddressRangeChecks : 4096 < (0xFFD : Addr).toNat + 4
    ∧ ((0xFF7 : Addr).toNat + 4 ≤ 4096 ∧ tableAtEdge.tableCount (0xFF7 : Addr).toNat ≠ 0
      ∧ 4096 < (0xFF7 : Addr).toNat + (4 + 6 * tableAtEdge.tableCount (0xFF7 : Addr).toNat))
    ∧ (vl12.TableReadable 0 ∧ vl12.IdsDistinct 0 ∧ vl12.LengthsEqual 0 ∧ 0 < vl12.tableCount 0
      ∧ (∀ k < 0, RangeOk (vl12.tableAdr 0 k) (vl12.tableLen 0 0)) ∧ ¬ RangeOk (vl12.tableAdr 0 0) (vl12.tableLen 0 0))
    ∧ (vl13.TableReadable 0 ∧ vl13.IdsDistinct 0 ∧ vl13.LengthsEqual 0
      ∧ (∀ j < vl13.tableCount 0, RangeOk (vl13.tableAdr 0 j) (vl13.tableLen 0 0))
      ∧ ¬ RangeOk (vl13.tableOut 0) (vl13.tableLen 0 0))
    ∧ vl14.TableReadable 0 ∧ vl14.IdsDistinct 0 ∧ vl14.LengthsEqual 0 ∧ vl14.tableLen 0 0 = 0 := by decide +kernel

theorem witness_LagrEmptyShareSet : (0x000 : Addr).toNat + 4 ≤ 4096 ∧ vl6.tableCount (0x000 : Addr).toNat = 0 := by decide +kernel

theorem witness_LagrDuplicateShareId : vl9.TableReadable 0 ∧ 2 < vl9.tableCount 0 ∧ 1 < 2 ∧ vl9.tableId 0 1 = vl9.tableId 0 2
    ∧ ∀ m' < vl9.tableCount 0, ∀ j' < m', (m' < 2 ∨ (m' = 2 ∧ j' < 1)) → vl9.tableId 0 j' ≠ vl9.tableId 0 m' := by decide +kernel

theorem witness_LagrMismatchedShareLength : vl8.TableReadable 0 ∧ vl8.IdsDistinct 0 ∧ 2 < vl8.tableCount 0
    ∧ vl8.tableLen 0 2 ≠ vl8.tableLen 0 0 ∧ ∀ k < 2, vl8.tableLen 0 k = vl8.tableLen 0 0 := by decide +kernel

theorem witness_LagrWritesInterpolatedBytes : vl1.LagrReady 0 ∧ vl17.LagrReady 0 := by decide +kernel

/-- The shares of V-S1: the polynomial 0x2A + 0x5A x. -/
theorem witness_LagrReconstructsConstantTerm : vl1.LagrReady 0 ∧ vl1.NoLateRead 0
    ∧ ∀ i < vl1.tableLen 0 0, ∀ j < vl1.tableCount 0, vl1.lmemAt (vl1.tableAdr 0 j + i)
      = fieldSum (vl1.tableCount 0) fun k => gmul (if k = 0 then 0x2A else 0x5A) (gpow (vl1.tableId 0 j) k) := by
  decide +kernel

theorem witness_LagrSpecialShareSets : (vl3.LagrReady 0 ∧ vl3.NoLateRead 0 ∧ vl3.tableCount 0 = 1)
    ∧ (vl14.TableReadable 0 ∧ vl14.IdsDistinct 0 ∧ ∀ j < vl14.tableCount 0, vl14.tableLen 0 j = 0)
    ∧ vl15.LagrReady 0 ∧ vl15.NoLateRead 0 ∧ 0 < vl15.tableCount 0 ∧ vl15.tableId 0 0 = 0x00 := by decide +kernel

theorem witness_LagrNeverInvertsZero : vl1.IdsDistinct 0 ∧ 1 < vl1.tableCount 0 := by decide +kernel

theorem witness_LagrNeverInvertsZero_next : exec (.lagr 0) vl1 = .next (nextOf (exec (.lagr 0) vl1)) :=
  eq_nextOf (by decide +kernel)

/-- V-L1 beside the same table and payloads with another byte in LMEM. -/
theorem witness_LagrLanesIndependent : vl1.LagrReady 0 ∧ vl1.NoLateRead 0
    ∧ (vl1.putByte 0x030 0x99).tableCount 0 = vl1.tableCount 0 ∧ (vl1.putByte 0x030 0x99).tableOut 0 = vl1.tableOut 0
    ∧ (∀ j < vl1.tableCount 0, (vl1.putByte 0x030 0x99).tableId 0 j = vl1.tableId 0 j
      ∧ (vl1.putByte 0x030 0x99).tableLen 0 j = vl1.tableLen 0 j ∧ (vl1.putByte 0x030 0x99).tableAdr 0 j = vl1.tableAdr 0 j)
    ∧ 0 < vl1.tableLen 0 0
    ∧ ∀ j < vl1.tableCount 0, (vl1.putByte 0x030 0x99).lmemAt (vl1.tableAdr 0 j + 0) = vl1.lmemAt (vl1.tableAdr 0 j + 0) := by
  decide +kernel

theorem witness_LagrLanesIndependent_next : exec (.lagr 0) (vl1.putByte 0x030 0x99)
    = .next (nextOf (exec (.lagr 0) (vl1.putByte 0x030 0x99))) :=
  eq_nextOf (by decide +kernel)

/-- FADD e3, e1, e2 with every register but its sources changed. -/
theorem witness_CommandsReachOnlyTheirRegisters : (st [(1, 0x57), (2, 0x83)] []).err = false
    ∧ (∀ r ∈ sourcesOf (.fadd 3 1 2),
      { st [(1, 0x57), (2, 0x83)] [] with e := (st [(1, 0x57), (2, 0x83), (3, 0x11)] []).e }.readE r
        = (st [(1, 0x57), (2, 0x83)] []).readE r)
    ∧ exec (.fadd 3 1 2) (st [(1, 0x57), (2, 0x83)] []) = .next (nextOf (exec (.fadd 3 1 2) (st [(1, 0x57), (2, 0x83)] []))) :=
  ⟨by decide +kernel, by decide +kernel, eq_nextOf (by decide +kernel)⟩

/-- FINV of 0x00 fails. -/
theorem witness_FailedCommandWritesNothing : (st [] []).busy = false ∧ (st [] []).err = false
    ∧ completeWord 0x00000704 ((st [] []).accept 0x00000704)
      = .next (nextOf (completeWord 0x00000704 ((st [] []).accept 0x00000704)))
    ∧ (nextOf (completeWord 0x00000704 ((st [] []).accept 0x00000704))).err = true :=
  ⟨rfl, rfl, eq_nextOf (by decide +kernel), by decide +kernel⟩

/-- One failing completion for each case of the code list. -/
theorem witness_ErrorCodesByCommand : [(completeWord 0x00000000 (st [] [])), (completeWord 0x00000704 (st [] [])),
    (completeWord 0x00023605 (st [] [])), (completeWord 0xFFF21408 (coefficients 0x02 2)), (completeWord 0x0000000C vl6),
    (completeWord 0x0000000C vl9), (completeWord 0x0000000C vl8), (completeWord 0x0000000C vl13)].map
      (after fun t => (t.err, t.errCode))
    = [some (true, 0x01), some (true, 0x02), some (true, 0x02), some (true, 0x06), some (true, 0x03), some (true, 0x04),
      some (true, 0x05), some (true, 0x06)] := by decide +kernel

theorem witness_IllegalWordRecordsIllegalCmd : decode 0x0000011F = none ∧ State.reset.busy = false ∧ State.reset.err = false
    ∧ (State.reset.accept 0x0000011F).CompletesNext 0x0000011F ∧ (State.reset.accept 0x0000011F).lastCmd = 0x0000011F := by
  decide +kernel

/-- With nothing to arrive, and with an arrival that comes after the completion. -/
theorem witness_StepRunsDecodedCommand : busyState.CompletesNext 0x0A500510
    ∧ { busyState with inputs := [⟨.rst true, true⟩] }.CompletesNext 0x0A500510 ∧ decode 0x0A500510 = some (.ldi 5 0xA5) := by
  decide +kernel

/-- Nothing pending, and a pending command whose completion comes later. -/
theorem witness_StepDeliversArrivals : { State.reset with inputs := [⟨.read 0x008, true⟩] }.ReceivesNext (.read 0x008) []
    ∧ { busyState with inputs := [⟨.write 0x00C 0x4, false⟩] }.ReceivesNext (.write 0x00C 0x4) [] ∧ State.reset.Settled
    ∧ State.reset.rst = false ∧ { State.reset with rst := true }.rst = true :=
  ⟨⟨.inl rfl, true, rfl⟩, ⟨.inr rfl, false, rfl⟩, ⟨rfl, rfl⟩, rfl, rfl⟩

theorem witness_PlacedWordRunsNext : decodeTableWord 32 0x00021301 = some (.fadd 3 1 2)
    ∧ decodeTableWord 8 0x1F = some .wipe := by decide +kernel

/-- LDI e5, 0xA5 pending: legal and canonical, and the step answers. -/
theorem witness_StepKeepsLegalStatus : busyState.Legal ∧ step busyState = .next (nextOf (step busyState)) :=
  ⟨by decide +kernel, eq_nextOf (by decide +kernel)⟩

theorem witness_StepKeepsLmemCanonical : Memory.wf busyState.lmem = true ∧ step busyState = .next (nextOf (step busyState)) :=
  ⟨by decide +kernel, eq_nextOf (by decide +kernel)⟩

/-- A CMD write that arrives while rst is asserted, and the release. -/
theorem witness_AssertedResetHoldsTheUnit : { State.reset with rst := true }.AtReset
    ∧ step { State.reset with rst := true, inputs := [⟨.write 0x004 0x0000001F, false⟩] }
      = .next { State.reset with rst := true, responses := [.write .ok] }
    ∧ { State.reset with rst := true, inputs := [⟨.rst false, false⟩] }.ReceivesNext (.rst false) [] :=
  ⟨by decide +kernel, rfl, .inl rfl, false, rfl⟩

/-- A pending ST, the state it completes in. -/
def storePending : State := (st [(4, 0x9E)] [(0x011, 0x22)]).accept 0x01104012

/-- A soft reset's clauses: SRST set, nothing in flight, an illegal word, a failing command, LDI and ST in flight. -/
theorem witness_SoftResetRule : (0x4 : Word).getLsbD 2 = true ∧ State.reset.pend = none
    ∧ ((State.reset.accept 0x0000011F).pend = some 0x0000011F ∧ decode 0x0000011F = none)
    ∧ (busyState.pend = some 0x0A500510 ∧ decode 0x0A500510 = some (.ldi 5 0xA5) ∧ writesLmem (.ldi 5 0xA5) = false)
    ∧ storePending.pend = some 0x01104012 ∧ decode 0x01104012 = some (.st 4 0x011) := by decide +kernel

theorem witness_SoftResetRule_next : exec (.st 4 0x011) storePending = .next (nextOf (exec (.st 4 0x011) storePending))
    ∧ exec (.lagr 0) (vl6.accept 0x0000000C) = .next (nextOf (exec (.lagr 0) (vl6.accept 0x0000000C)))
    ∧ (vl6.accept 0x0000000C).err = false ∧ (nextOf (exec (.lagr 0) (vl6.accept 0x0000000C))).err = true :=
  ⟨eq_nextOf (by decide +kernel), eq_nextOf (by decide +kernel), rfl, by decide +kernel⟩

theorem witness_BadOffsetsAnswerError : (0x002 % 4 ≠ 0 ∨ 0x2000 ≤ 0x002) ∧ (0x2000 % 4 ≠ 0 ∨ 0x2000 ≤ 0x2000)
    ∧ ¬ (0x1FFC % 4 ≠ 0 ∨ 0x2000 ≤ 0x1FFC) := by decide

theorem witness_ReservedAndReadOnlyWords : ∀ off ∈ [0x014, 0x03C, 0x080, 0xFFC],
    off % 4 = 0 ∧ ((0x014 ≤ off ∧ off ≤ 0x03C) ∨ (0x080 ≤ off ∧ off ≤ 0xFFC)) := by decide

/-- Both values of BUSY. -/
theorem witness_ElementWindow : busyState.busy = true ∧ State.reset.busy = false := by decide +kernel

theorem witness_LmemWindow : 1023 < 1024 ∧ busyState.busy = true ∧ State.reset.busy = false := by decide +kernel

theorem witness_BusyHidesElementsAndLmem : busyState.busy = true ∧ ∀ off ∈ [0x040, 0x07C, 0x1000, 0x1FFC],
    off % 4 = 0 ∧ ((0x040 ≤ off ∧ off ≤ 0x07C) ∨ (0x1000 ≤ off ∧ off ≤ 0x1FFC)) := by decide +kernel

/-- An accepted write in a state whose OVR is set already leaves it set. -/
theorem witness_DiscardedWritesSetOvr : (busyState.busy = true ∧ ∀ off ∈ [0x040, 0x07C, 0x1000, 0x1FFC],
      off % 4 = 0 ∧ ((0x040 ≤ off ∧ off ≤ 0x07C) ∨ (0x1000 ≤ off ∧ off ≤ 0x1FFC)))
    ∧ { State.reset with err := true }.err = true
    ∧ ({ State.reset with ovr := true }.busy = false ∧ { State.reset with ovr := true }.err = false
      ∧ ({ State.reset with ovr := true }.hostWrite 0x004 0).2.ovr = true) := by decide +kernel

theorem witness_CmdAcceptance : busyState.busy = true ∧ { State.reset with err := true }.err = true
    ∧ State.reset.busy = false ∧ State.reset.err = false := by decide +kernel

theorem witness_CtrlWriteRule : (0x7 : Word).getLsbD 2 = true
    ∧ ((0x1 : Word).getLsbD 2 = false ∧ (0x1 : Word).getLsbD 1 = false)
    ∧ (0xFFFFFFFB : Word).getLsbD 2 = false ∧ (0xFFFFFFFB : Word).getLsbD 1 = true := by decide

theorem witness_InterruptLevel : { State.reset with ie := true, done := true }.irq = true
    ∧ ((0x3 : Word).getLsbD 2 = false ∧ (0x3 : Word).getLsbD 1 = true) ∧ (0x4 : Word).getLsbD 2 = true ∧ State.reset.busy = false ∧ State.reset.err = false := by
  decide +kernel

/-- The error state: idle, then a CTRL write with CLR, then a hardware reset. -/
theorem witness_ErrStaysUntilCleared : { State.reset with err := true }.err = true
    ∧ step { State.reset with err := true } = .next (nextOf (step { State.reset with err := true }))
    ∧ { State.reset with err := true, inputs := [⟨.write 0x00C 0x2, false⟩] }.ReceivesNext (.write 0x00C 0x2) []
    ∧ { State.reset with err := true, inputs := [⟨.rst true, false⟩] }.ReceivesNext (.rst true) [] :=
  ⟨rfl, eq_nextOf (by decide +kernel), ⟨.inl rfl, false, rfl⟩, .inl rfl, false, rfl⟩

/-- A step that changes a register (LDI) and one that changes an LMEM byte (ST). -/
theorem witness_StorageChangesOnlyBy : (step busyState = .next (nextOf (step busyState))
      ∧ ∃ r, (nextOf (step busyState)).readE r ≠ busyState.readE r)
    ∧ step storePending = .next (nextOf (step storePending))
      ∧ ∃ a, (nextOf (step storePending)).lmemAt a ≠ storePending.lmemAt a :=
  ⟨⟨eq_nextOf (by decide +kernel), 5, by decide +kernel⟩, eq_nextOf (by decide +kernel), 0x011, by decide +kernel⟩

end Sys2Proof.Tests
end

/-! ### GF(2^8) has no zero divisors (40_field R142)

The rounds of R131 are additive in both factors, so multiplication is associative once it commutes with `gdouble`, and
with R133's inverse a product of nonzero bytes is nonzero. -/

section

namespace Sys2Proof.Machine

theorem fieldSum_induction {P : Byte → Prop} {n : Nat} {f : Nat → Byte} (zero : P 0x00)
    (xor : ∀ a b, P a → P b → P (a ^^^ b)) (term : ∀ k < n, P (f k)) : P (fieldSum n f) := by
  induction n with
  | zero => exact zero
  | succ n ih => exact xor _ _ (ih fun k hk => term k (by omega)) (term n (by omega))

/-- A byte is the field sum of its bits. -/
theorem fieldSum_bits (b : Byte) : (fieldSum 8 fun k => if b.getLsbD k then 0x01 <<< k else 0x00) = b := by
  revert b
  decide +kernel

/-- What holds of the powers of two and is kept by field addition holds of every byte. An additive law of the field is
so reduced to its eight single-bit cases. -/
theorem byte_xor_induction {P : Byte → Prop} (bit : ∀ k < 8, P (0x01 <<< k))
    (xor : ∀ a b, P a → P b → P (a ^^^ b)) (b : Byte) : P b := by
  have zero : P 0x00 := xor 0x01 0x01 (bit 0 (by omega)) (bit 0 (by omega))
  rw [← fieldSum_bits b]
  refine fieldSum_induction zero xor fun k hk => ?_
  split
  · exact bit k hk
  · exact zero

/-- The rounds are additive in the multiplier. -/
theorem gmulRounds_xor_right (n : Nat) (a b b' : Byte) :
    gmulRounds n 0 a (b ^^^ b') = gmulRounds n 0 a b ^^^ gmulRounds n 0 a b' := by
  induction n generalizing a b b' with
  | zero => simp [gmulRounds]
  | succ n ih =>
    simp only [gmulRounds_succ, BitVec.ushiftRight_xor_distrib, BitVec.getLsbD_xor, ih]
    cases b.getLsbD 0 <;> cases b'.getLsbD 0 <;> simp [BitVec.xor_assoc, byte_xor_left_comm]

theorem gmul_xor_left (a a' b : Byte) : gmul (a ^^^ a') b = gmul a b ^^^ gmul a' b :=
  gmulRounds_xor 8 a a' b

theorem gmul_xor_right (a b b' : Byte) : gmul a (b ^^^ b') = gmul a b ^^^ gmul a b' :=
  gmulRounds_xor_right 8 a b b'

theorem zero_gmul (b : Byte) : gmul 0x00 b = 0x00 := by
  simpa using gmul_xor_left 0x00 0x00 b

theorem gmul_zero (a : Byte) : gmul a 0x00 = 0x00 := by
  simpa using gmul_xor_right a 0x00 0x00

/-- The running product's step may be taken after the multiplication: both sides are additive in a and in b, so it
suffices to compare them on powers of two. -/
theorem gmul_gdouble (a b : Byte) : gmul a (gdouble b) = gdouble (gmul a b) := by
  induction b using byte_xor_induction with
  | xor b b' hb hb' => rw [gdouble_xor, gmul_xor_right, gmul_xor_right, gdouble_xor, hb, hb']
  | bit l hl =>
    induction a using byte_xor_induction with
    | xor a a' ha ha' => rw [gmul_xor_left, gmul_xor_left, gdouble_xor, ha, ha']
    | bit k hk =>
      have single_bits : ∀ k < 8, ∀ l < 8,
          gmul (0x01 <<< k) (gdouble (0x01 <<< l)) = gdouble (gmul (0x01 <<< k) (0x01 <<< l)) := by decide
      exact single_bits k hk l hl

/-- A left factor moves into the running product of the rounds. -/
theorem gmul_gmulRounds (n : Nat) (a b c : Byte) :
    gmul a (gmulRounds n 0 b c) = gmulRounds n 0 (gmul a b) c := by
  induction n generalizing b c with
  | zero => exact gmul_zero a
  | succ n ih =>
    rw [gmulRounds_succ, gmulRounds_succ, gmul_xor_right, ih, gmul_gdouble]
    split
    · rfl
    · rw [gmul_zero]

theorem gmul_assoc (a b c : Byte) : gmul (gmul a b) c = gmul a (gmul b c) :=
  (gmul_gmulRounds 8 a b c).symm

/-- `ginv` is the inverse on every nonzero byte (40_field R133), evaluated on all 255. -/
theorem gmul_ginv {a : Byte} (h : a ≠ 0x00) : gmul a (ginv a) = 0x01 := by
  revert a
  decide +kernel

theorem gmul_ne_zero {a b : Byte} (ha : a ≠ 0x00) (hb : b ≠ 0x00) : gmul a b ≠ 0x00 := by
  intro h
  apply ha
  calc a = gmul a (gmul b (ginv b)) := by rw [gmul_ginv hb, gmul_one]
    _ = gmul (gmul a b) (ginv b) := (gmul_assoc a b (ginv b)).symm
    _ = 0x00 := by rw [h, zero_gmul]

theorem fieldProd_ne_zero {n : Nat} {f : Nat → Byte} (h : ∀ k < n, f k ≠ 0x00) : fieldProd n f ≠ 0x00 := by
  induction n with
  | zero => exact (by decide : (0x01 : Byte) ≠ 0x00)
  | succ n ih => exact gmul_ne_zero (ih fun k hk => h k (by omega)) (h n (by omega))

/-- With distinct IDs no denominator of LAGR is 0x00 (42_lagrange R181). -/
theorem basisDen_ne_zero {s : State} {t j : Nat} (h : s.IdsDistinct t) (hj : j < s.tableCount t) :
    basisDen (s.tableId t) (s.tableCount t) j ≠ 0x00 := by
  refine fieldProd_ne_zero fun m hm => ?_
  split
  · decide
  · next hne =>
    intro hzero
    have heq : s.tableId t j = s.tableId t m := BitVec.xor_eq_zero_iff.1 hzero
    rcases Nat.lt_or_gt_of_ne hne with hlt | hlt
    · exact h j hj m hlt heq.symm
    · exact h m hm j hlt heq

end Sys2Proof.Machine

end

/-! ### No command's rule is ever stuck (00_scope R10)

A rule that ends early raises one of the unit's errors: each check that passes gives the range or the distinctness that
the reads, writes and inverses after it need. -/

section

namespace Sys2Proof.Machine

/-- The rule, or a part of it, does not end in one of the model's own stops. -/
def NeverStuck {α : Type} (x : Except Stop α) : Prop :=
  ∀ f, x ≠ .error (.stuck f)

theorem neverStuck_ok {α : Type} (a : α) : NeverStuck (.ok a : Except Stop α) := by
  rintro f ⟨⟩

theorem neverStuck_raised {α : Type} (c : ErrorCode) (w : Word) :
    NeverStuck (.error (.raised c w) : Except Stop α) := by
  rintro f ⟨⟩

/-- The rest of a rule may use what its first part answered. -/
theorem neverStuck_bind {α β : Type} {x : Except Stop α} {g : α → Except Stop β} (hx : NeverStuck x)
    (hg : ∀ a, x = .ok a → NeverStuck (g a)) : NeverStuck (x >>= g) := by
  intro f h
  rcases bind_eq_error.1 h with h | ⟨a, ha, h⟩
  · exact hx f h
  · exact hg a ha f h

theorem neverStuck_raiseIf (b : Bool) (c : ErrorCode) (w : Word) : NeverStuck (raiseIf b c w) := by
  cases b
  · exact neverStuck_ok ()
  · exact neverStuck_raised c w

/-- The completion of a rule that is never stuck answers a next state. -/
theorem goes_complete {s : State} {r : Except Stop State} (h : NeverStuck r) : Goes (complete s r) := by
  match r, h with
  | .ok u, _ => exact ⟨_, complete_ok s u⟩
  | .error (.raised c w), _ => exact ⟨_, complete_raised s c w⟩
  | .error (.stuck f), h => exact absurd rfl (h f)

theorem requireRange_eq_ok {a n : Nat} {u : Unit} (h : requireRange a n = .ok u) : RangeOk a n := by
  rcases requireRange_cases a n with ⟨hr, -⟩ | ⟨-, he⟩
  · exact hr
  · rw [he] at h
    cases h

theorem neverStuck_requireRange (a n : Nat) : NeverStuck (requireRange a n) :=
  neverStuck_raiseIf _ _ _

theorem goes_execPeval (rd rs1 rs2 : Reg) (addr : Addr) (s : State) : Goes (execPeval rd rs1 rs2 addr s) := by
  refine goes_complete (neverStuck_bind (neverStuck_requireRange _ _) fun _ hr => ?_)
  rw [horner_of_ok (requireRange_eq_ok hr)]
  exact neverStuck_ok _

theorem neverStuck_checkDistinct (ids : List Byte) : NeverStuck (checkDistinct ids) := by
  unfold checkDistinct
  split
  · exact neverStuck_raised _ _
  · exact neverStuck_ok _

/-- A table that passes the duplicate check has distinct IDs. -/
theorem distinct_of_checkDistinct {s : State} {t : Nat} {u : Unit} (h : checkDistinct (s.tableIds t) = .ok u) :
    s.IdsDistinct t := by
  have hnone : firstDuplicate [] (s.tableIds t) = none := by
    unfold checkDistinct at h
    split at h
    · cases h
    · assumption
  intro m hm j hj he
  refine firstDuplicate_eq_none.1 hnone m (Nat.zero_le _) ?_ j hj ?_
  · simpa [tableIds_length] using hm
  · rw [List.nil_append, tableIds_get (by omega), tableIds_get hm, he]

theorem neverStuck_checkLengths (lens : List Half) (len0 : Half) : NeverStuck (checkLengths lens len0) := by
  unfold checkLengths
  split
  · exact neverStuck_raised _ _
  · exact neverStuck_ok _

theorem neverStuck_checkPayloads (len : Nat) (l : List Share) : NeverStuck (checkPayloads len l) := by
  induction l with
  | nil => exact neverStuck_ok _
  | cons sh rest ih => exact neverStuck_bind (neverStuck_requireRange _ _) fun _ _ => ih

/-- Payloads that pass the check all lie in LMEM, or are empty. -/
theorem rangeOk_of_checkPayloads {len : Nat} {l : List Share} {u : Unit} (h : checkPayloads len l = .ok u) :
    ∀ sh ∈ l, RangeOk sh.adr.toNat len := by
  induction l with
  | nil => simp
  | cons sh rest ih =>
    rw [checkPayloads, bind_eq_ok] at h
    obtain ⟨_, hsh, hrest⟩ := h
    exact List.forall_mem_cons.2 ⟨requireRange_eq_ok hsh, ih hrest⟩

/-- The byte positions stay inside LMEM where every payload and the output do. -/
theorem neverStuck_lanes {terms : List (Nat × Byte)} {out n : Nat} {s : State}
    (hr : ∀ p ∈ terms, RangeOk p.1 n) (hw : RangeOk out n) : NeverStuck (State.lanes terms out 0 n s) := by
  rcases Nat.eq_zero_or_pos n with rfl | hn
  · exact neverStuck_ok s
  · obtain ⟨t, ht, -⟩ := lanes_of_le (terms := terms) (out := out) (i := 0) (n := n) (s := s)
      (fun p hp => by rcases hr p hp with h | h <;> omega) (by rcases hw with h | h <;> omega)
    rw [ht]
    exact neverStuck_ok t

/-- What LAGR does once it holds the descriptors is never stuck: distinct IDs give nonzero denominators, and the range
checks keep every byte position inside LMEM (42_lagrange R172, R181). -/
theorem neverStuck_lagrFrom (s : State) (t : Nat) (out : Half) : NeverStuck (s.lagrFrom out (s.tableShares t)) := by
  unfold State.lagrFrom
  rw [tableShares_ids]
  refine neverStuck_bind (neverStuck_checkDistinct _) fun _ hids => ?_
  refine neverStuck_bind (neverStuck_checkLengths _ _) fun _ _ => ?_
  refine neverStuck_bind (neverStuck_checkPayloads _ _) fun _ hpay => ?_
  refine neverStuck_bind (neverStuck_requireRange _ _) fun _ hout => ?_
  rw [basisList_table fun j hj => basisDen_ne_zero (distinct_of_checkDistinct hids) hj, bind_ok]
  refine neverStuck_lanes (fun p hp => ?_) (requireRange_eq_ok hout)
  obtain ⟨sh, hsh, hadr⟩ := List.mem_map.1 (List.of_mem_zip hp).1
  rw [← hadr]
  exact rangeOk_of_checkPayloads hpay sh hsh

/-- A header that reaches past LMEM (42_lagrange R172). -/
theorem execLagr_of_header_not {addr : Addr} {s : State} (h : ¬ RangeOk addr.toNat 4) :
    execLagr addr s = .next (s.recordError .addressRange (rangeInfo 4 addr.toNat)) := by
  simp only [execLagr, requireRange_of_not h, bind_error, complete_raised]

/-- A table that lists no share (42_lagrange R173). -/
theorem execLagr_of_empty {addr : Addr} {s : State} (h1 : addr.toNat + 4 ≤ 4096) (h2 : s.tableCount addr.toNat = 0) :
    execLagr addr s = .next (s.recordError .emptyShareSet 0x00000000) := by
  have hc : (s.lmemAt addr.toNat == 0x00) = true := by
    rw [beq_iff_eq]
    exact BitVec.eq_of_toNat_eq h2
  simp only [execLagr, requireRange_of_ok (Or.inr h1 : RangeOk addr.toNat 4), bind_ok,
    memRead_of_lt (show addr.toNat < 4096 by omega), memRead16_of_lt (show addr.toNat + 2 + 1 < 4096 by omega), hc,
    raiseIf_true, bind_error, complete_raised]

theorem goes_execLagr (addr : Addr) (s : State) : Goes (execLagr addr s) := by
  by_cases h1 : addr.toNat + 4 ≤ 4096
  · by_cases h2 : s.tableCount addr.toNat = 0
    · exact ⟨_, execLagr_of_empty h1 h2⟩
    · by_cases h3 : addr.toNat + (4 + 6 * s.tableCount addr.toNat) ≤ 4096
      · rw [execLagr_of_table ⟨h1, h2, h3⟩]
        exact goes_complete (neverStuck_lagrFrom s addr.toNat _)
      · exact ⟨_, execLagr_of_table_not h1 h2 (by rintro (h | h) <;> omega)⟩
  · exact ⟨_, execLagr_of_header_not (by rintro (h | h) <;> omega)⟩

/-- Every command completes in every state. -/
theorem goes_exec (i : Instr) (s : State) : Goes (exec i s) := by
  cases i with
  | fadd rd rs1 rs2 => exact ⟨_, complete_ok s _⟩
  | fsub rd rs1 rs2 => exact ⟨_, complete_ok s _⟩
  | fmul rd rs1 rs2 => exact ⟨_, complete_ok s _⟩
  | finv rd rs1 => exact goes_complete (neverStuck_bind (neverStuck_raiseIf _ _ _) fun _ _ => neverStuck_ok _)
  | fdiv rd rs1 rs2 => exact goes_complete (neverStuck_bind (neverStuck_raiseIf _ _ _) fun _ _ => neverStuck_ok _)
  | peval rd rs1 rs2 addr => exact goes_execPeval rd rs1 rs2 addr s
  | lagr addr => exact goes_execLagr addr s
  | ldi rd imm8 => exact ⟨_, complete_ok s _⟩
  | ld rd addr =>
    refine goes_complete ?_
    rw [memRead_of_lt addr.isLt]
    exact neverStuck_ok _
  | st rs1 addr =>
    refine goes_complete ?_
    rw [memWrite_of_lt addr.isLt]
    exact neverStuck_ok _
  | wipe => exact ⟨_, complete_ok s _⟩

/-- Every word completes in every state, an illegal one by recording ILLEGAL_CMD (30_encoding R112). -/
theorem goes_completeWord (c : Word) (s : State) : Goes (completeWord c s) := by
  unfold completeWord
  split
  · exact goes_exec _ s
  · exact ⟨_, rfl⟩

theorem goes_step (s : State) : Goes (step s) := by
  rcases step_cases s with ⟨c, hc⟩ | ⟨x, rest, hx⟩ | hs
  · rw [step_completes hc]
    exact goes_completeWord c s
  · exact ⟨_, step_receives hx⟩
  · exact ⟨_, step_idle hs⟩

/-- Settles O37: every rule is checked before it reads, writes or inverts, so no completion is stuck, and a step that
completes nothing delivers an arrival or idles. -/
theorem everyStepAnswersNext : Obligations.EveryStepAnswersNext :=
  ⟨goes_exec, goes_step⟩

end Sys2Proof.Machine

end

/-! ### Everything a host write and a step can do

`WriteEffect` names the effects of a host write with the offset and data that lead to each, `StepTo` the four kinds of
step. An invariant, or what a step leaves unchanged, is then one case analysis over them. -/

section

namespace Sys2Proof.Machine

@[simp] theorem hostWrite_cmd (s : State) (w : Word) : s.hostWrite 0x004 w = (.ok, s.writeCmd w) := rfl

@[simp] theorem hostWrite_ctrl (s : State) (w : Word) : s.hostWrite 0x00C w = (.ok, s.writeCtrl w) := rfl

theorem writeCmd_discard {s : State} (w : Word) (h : s.busy = true ∨ s.err = true) : s.writeCmd w = s.discard := by
  simp [State.writeCmd, h]

theorem writeCmd_accept {s : State} (w : Word) (hbusy : s.busy = false) (herr : s.err = false) :
    s.writeCmd w = s.accept w := by
  simp [State.writeCmd, hbusy, herr]

theorem writeCtrl_softReset {s : State} {w : Word} (h : w.getLsbD 2 = true) : s.writeCtrl w = s.softReset :=
  if_pos h

theorem writeCtrl_clear {s : State} {w : Word} (h2 : w.getLsbD 2 = false) (h1 : w.getLsbD 1 = true) :
    s.writeCtrl w = { s with ie := w.getLsbD 0 }.clearStatus := by
  simp only [State.writeCtrl, h2, h1, Bool.false_eq_true, if_false, if_true]

theorem writeCtrl_enable {s : State} {w : Word} (h2 : w.getLsbD 2 = false) (h1 : w.getLsbD 1 = false) :
    s.writeCtrl w = { s with ie := w.getLsbD 0 } := by
  simp only [State.writeCtrl, h2, h1, Bool.false_eq_true, if_false]

/-- The effects of a host write of d at offset off (20_memory R65, R66, R67, R72, R75, 10_state R35). -/
inductive WriteEffect (s : State) (off : Nat) (d : Word) : State → Prop where
  | ignored : WriteEffect s off d s
  | discarded : WriteEffect s off d s.discard
  | accepted (hoff : off = 0x004) (hbusy : s.busy = false) (herr : s.err = false) : WriteEffect s off d (s.accept d)
  | softReset (hoff : off = 0x00C) (hsrst : d.getLsbD 2 = true) : WriteEffect s off d s.softReset
  | cleared (hoff : off = 0x00C) (hclr : d.getLsbD 1 = true) :
      WriteEffect s off d { s with ie := d.getLsbD 0 }.clearStatus
  | enabled (hoff : off = 0x00C) : WriteEffect s off d { s with ie := d.getLsbD 0 }
  | element (k : Reg) (hoff : off = 0x040 + 4 * k.toNat) : WriteEffect s off d (s.writeE k (d.extractLsb' 0 8))
  | lmem (base : Nat) (hoff : off = 0x1000 + base) (hbase : base + 3 < 4096) : WriteEffect s off d (s.putWord base d)

theorem writeCmd_effect (s : State) (d : Word) : WriteEffect s 0x004 d (s.writeCmd d) := by
  by_cases h : s.busy = true ∨ s.err = true
  · rw [writeCmd_discard d h]
    exact .discarded
  · obtain ⟨hbusy, herr⟩ : s.busy = false ∧ s.err = false := by simpa using h
    rw [writeCmd_accept d hbusy herr]
    exact .accepted rfl hbusy herr

theorem writeCtrl_effect (s : State) (d : Word) : WriteEffect s 0x00C d (s.writeCtrl d) := by
  cases h2 : d.getLsbD 2 with
  | true =>
    rw [writeCtrl_softReset h2]
    exact .softReset rfl h2
  | false =>
    cases h1 : d.getLsbD 1 with
    | true =>
      rw [writeCtrl_clear h2 h1]
      exact .cleared rfl h1
    | false =>
      rw [writeCtrl_enable h2 h1]
      exact .enabled rfl

/-- EVERYTHING A HOST WRITE CAN DO. -/
theorem hostWrite_effect (s : State) (off : Nat) (d : Word) : WriteEffect s off d (s.hostWrite off d).2 := by
  unfold State.hostWrite
  split
  · exact .ignored
  · next p hp =>
    obtain ⟨-, -, hoff⟩ := placeOf_cases hp
    cases p with
    | id | status | errInfo | reserved => exact .ignored
    | cmd =>
      obtain rfl : off = 0x004 := hoff
      exact writeCmd_effect s d
    | ctrl =>
      obtain rfl : off = 0x00C := hoff
      exact writeCtrl_effect s d
    | element k =>
      dsimp only [State.writePlace]
      split
      · exact .discarded
      · exact .element k hoff
    | lmem base =>
      obtain ⟨hoff, -, hbase⟩ := hoff
      dsimp only [State.writePlace]
      split
      · exact .discarded
      · exact .lmem base hoff hbase

/-- The kinds of step from s to t: a completion, an edge of rst, a host write that takes effect, or a step that holds all
but the model's own lists (a read, a write while rst is asserted, an idle step). -/
inductive StepTo (s t : State) : Prop where
  | completes (c : Word) (hc : s.CompletesNext c) (ht : completeWord c s = .next t)
  | edge (b : Bool) (rest : List Arrival) (hx : s.ReceivesNext (.rst b) rest)
      (ht : t = { s with inputs := rest }.hardReset b)
  | wrote (off : Nat) (d : Word) (rest : List Arrival) (hx : s.ReceivesNext (.write off d) rest)
      (hrst : s.rst = false) (u : State) (hu : WriteEffect { s with inputs := rest } off d u) (r : Response)
      (ht : t = u.answer r)
  | held (ht : t = { s with inputs := t.inputs, responses := t.responses })

/-- EVERY STEP THAT ANSWERS is of one of the four kinds. -/
theorem step_to {s t : State} (h : step s = .next t) : StepTo s t := by
  rcases step_cases s with ⟨c, hc⟩ | ⟨x, rest, hx⟩ | hs
  · exact .completes c hc (step_completes hc ▸ h)
  · rw [step_receives hx] at h
    obtain rfl := Host.Outcome.next.inj h
    cases x with
    | read off => exact .held rfl
    | rst b => exact .edge b rest hx rfl
    | write off d =>
      rcases Bool.eq_false_or_eq_true { s with inputs := rest }.rst with hrst | hrst
      · exact .held (by rw [State.deliver, deliverWrite_asserted hrst]; rfl)
      · exact .wrote off d rest hx hrst _ (hostWrite_effect _ off d) _ (deliverWrite_released hrst off d)
  · rw [step_idle hs] at h
    obtain rfl := Host.Outcome.next.inj h
    exact .held rfl

end Sys2Proof.Machine

end

/-! ### The status invariants and LMEM's canonical form (10_state R41, R42, 20_memory R62) -/

section

namespace Sys2Proof.Machine

/-- With PEND empty and no error recorded, only the reset level is left to check. -/
theorem legal_of_cleared {s : State} (hpend : s.pend = none) (herr : s.err = false)
    (hcode : s.errCode = 0x00) (hinfo : s.errInfo = 0x00000000) (hrst : s.rst = true → s.AtReset) : s.Legal := by
  refine ⟨.inl hpend, ?_, fun _ => ⟨hcode, hinfo⟩, ?_, fun _ => herr, hrst⟩
  · simp [State.busy, hpend]
  · simp [herr]

theorem legal_hardReset (s : State) (b : Bool) : (s.hardReset b).Legal :=
  legal_of_cleared rfl rfl rfl rfl fun _ => ⟨rfl, rfl, rfl, rfl, rfl, rfl, rfl, rfl, rfl, rfl⟩

/-- While rst is asserted PEND is empty, so the unit that is busy has rst released. -/
theorem State.Legal.rst_released {s : State} (hs : s.Legal) {c : Word} (hc : s.pend = some c) : s.rst = false := by
  obtain ⟨-, -, -, -, -, hheld⟩ := hs
  by_contra h
  obtain ⟨-, -, hpend, -⟩ := hheld (by simpa using h)
  rw [hc] at hpend
  cases hpend

theorem WriteEffect.legal {s u : State} {off : Nat} {d : Word} (h : WriteEffect s off d u) (hrst : s.rst = false)
    (hs : s.Legal) : u.Legal := by
  have released : ∀ {p : Prop}, s.rst = true → p := fun hr => by simp [hrst] at hr
  obtain ⟨hpend, hbusy, hnoerr, hcode, hdone, -⟩ := hs
  cases h with
  | ignored | discarded | enabled | element | lmem => exact ⟨hpend, hbusy, hnoerr, hcode, hdone, released⟩
  | accepted _ _ herr => exact ⟨.inr rfl, fun _ => ⟨rfl, herr⟩, hnoerr, hcode, fun _ => herr, released⟩
  | softReset =>
    rw [softReset_frame]
    exact legal_of_cleared rfl rfl rfl rfl released
  | cleared =>
    refine ⟨hpend, fun hb => ⟨rfl, rfl⟩, fun _ => ⟨rfl, rfl⟩, ?_, fun _ => rfl, released⟩
    simp

/-- A completion from a legal state: the pending word found DONE = 0 and ERR = 0, so at most one of them is set. -/
theorem Answered.legal {s t : State} (h : Answered s t) {c : Word} (hc : s.pend = some c) (hs : s.Legal) : t.Legal := by
  have hrst := hs.rst_released hc
  have released : ∀ {p : Prop}, s.rst = true → p := fun hr => by simp [hrst] at hr
  obtain ⟨-, hbusy, hnoerr, -, -, -⟩ := hs
  obtain ⟨hdone, herr⟩ := hbusy (by simp [State.busy, hc])
  rcases h with ⟨u, ⟨hu, -⟩, rfl⟩ | ⟨code, info, rfl⟩
  · rw [hu]
    refine ⟨.inl rfl, ?_, hnoerr, ?_, fun _ => herr, released⟩
    · simp [State.busy]
    · simp [herr]
  · refine ⟨.inl rfl, ?_, ?_, fun _ => errorNumber_range code, ?_, released⟩
    · simp [State.busy]
    · simp
    · simp [hdone]

/-- Settles O38, over the four kinds of step. -/
theorem stepKeepsLegalStatus : Obligations.StepKeepsLegalStatus := by
  intro s t hs h
  cases step_to h with
  | completes c hc ht => exact (completeWord_answered ht).legal hc.1 hs
  | edge b rest _ ht => exact ht ▸ legal_hardReset _ b
  | wrote off d rest _ hrst u hu r ht =>
    subst ht
    exact hu.legal hrst hs
  | held ht =>
    rw [ht]
    exact hs

/-- Settles O39: the completion of a command and every delivery keep the canonical form. -/
theorem stepKeepsLmemCanonical : Obligations.StepKeepsLmemCanonical := by
  intro s t hs h
  rcases step_cases s with ⟨c, hc⟩ | ⟨x, rest, hx⟩ | hidle
  · rw [step_completes hc] at h
    exact (completeWord_answered h).memory_wf hs
  · rw [step_receives hx] at h
    obtain rfl := Host.Outcome.next.inj h
    exact deliver_memory_wf x hs
  · rw [step_idle hidle] at h
    obtain rfl := Host.Outcome.next.inj h
    exact hs

/-- Settles O40. -/
theorem resetMeetsInvariants : Obligations.ResetMeetsInvariants :=
  ⟨legal_of_cleared rfl rfl rfl rfl nofun, rfl⟩

end Sys2Proof.Machine

end

/-! ### What a command reads and writes (10_state R24, 70_reset R262)

Eight commands compute one byte from their sources and LMEM and write it to one register (`WritesOne`). LAGR and ST
change LMEM alone, and commute with any change of the registers they do not read (`State.withE`). WIPE reads nothing. -/

section

namespace Sys2Proof.Machine

/-- The state with the element registers e'. -/
def State.withE (s : State) (e' : Vector Byte 16) : State :=
  { s with e := e' }

theorem memRead_withE (s : State) (e' : Vector Byte 16) (a : Nat) : (s.withE e').memRead a = s.memRead a := rfl

theorem memRead16_withE (s : State) (e' : Vector Byte 16) (a : Nat) : (s.withE e').memRead16 a = s.memRead16 a := rfl

theorem readShares_withE (s : State) (e' : Vector Byte 16) (t j n : Nat) :
    (s.withE e').readShares t j n = s.readShares t j n := by
  induction n generalizing j with
  | zero => rfl
  | succ n ih =>
    rw [State.readShares, ih]
    rfl

theorem horner_withE (s : State) (e' : Vector Byte 16) (x : Byte) (a n : Nat) (acc : Byte) :
    (s.withE e').horner x a n acc = s.horner x a n acc := by
  induction n generalizing acc with
  | zero => rfl
  | succ n ih => simp only [State.horner, memRead_withE, ih]

theorem laneSum_withE (s : State) (e' : Vector Byte 16) (i : Nat) (terms : List (Nat × Byte)) (acc : Byte) :
    (s.withE e').laneSum i terms acc = s.laneSum i terms acc := by
  induction terms generalizing acc with
  | nil => rfl
  | cons p rest ih => simp only [State.laneSum, memRead_withE, ih]

theorem memWrite_withE (s : State) (e' : Vector Byte 16) (a : Nat) (v : Byte) :
    (s.withE e').memWrite a v = (·.withE e') <$> s.memWrite a v := by
  unfold State.memWrite
  split <;> rfl

theorem lanes_withE (s : State) (e' : Vector Byte 16) (terms : List (Nat × Byte)) (out i n : Nat) :
    State.lanes terms out i n (s.withE e') = (·.withE e') <$> State.lanes terms out i n s := by
  induction n generalizing i s with
  | zero => rfl
  | succ n ih => simp only [State.lanes, laneSum_withE, memWrite_withE, map_bind, bind_map_left, ih]

/-- A rule that commutes with a change of the registers completes so too. -/
theorem complete_withE {s t : State} {e' : Vector Byte 16} {r r' : Except Stop State} (h : complete s r = .next t)
    (hr : r' = (·.withE e') <$> r) : complete (s.withE e') r' = .next (t.withE e') := by
  rcases complete_cases h with ⟨u, rfl, rfl⟩ | ⟨c, w, rfl, rfl⟩ <;> exact hr ▸ rfl

/-- LAGR reads and writes LMEM alone. -/
theorem exec_lagr_withE {addr : Addr} {s t : State} (e' : Vector Byte 16) (h : exec (.lagr addr) s = .next t) :
    exec (.lagr addr) (s.withE e') = .next (t.withE e') := by
  refine complete_withE h ?_
  simp only [map_bind, memRead_withE, memRead16_withE, readShares_withE, lanes_withE]

/-- ST reads one register and LMEM, and writes LMEM alone. -/
theorem exec_st_withE {rs1 : Reg} {addr : Addr} {s t : State} {e' : Vector Byte 16}
    (hsrc : (s.withE e').readE rs1 = s.readE rs1) (h : exec (.st rs1 addr) s = .next t) :
    exec (.st rs1 addr) (s.withE e') = .next (t.withE e') := by
  refine complete_withE h ?_
  rw [hsrc, memWrite_withE]

theorem exec_lagr_e {addr : Addr} {s t : State} (h : exec (.lagr addr) s = .next t) : t.e = s.e := by
  rcases complete_cases h with ⟨u, hu, rfl⟩ | ⟨c, w, -, rfl⟩
  · repeat
      rw [bind_eq_ok] at hu
      obtain ⟨_, -, hu⟩ := hu
    rw [State.recordDone_e, (lanes_frame hu).1]
  · rfl

theorem exec_st_eq (rs1 : Reg) (addr : Addr) (s : State) :
    exec (.st rs1 addr) s = .next (s.putByte addr.toNat (s.readE rs1)).recordDone := by
  rw [← complete_ok s, ← memWrite_of_lt addr.isLt]
  rfl

/-- The command computes the byte f, or raises, from its sources and LMEM, and then writes the register rd alone. -/
structure WritesOne (i : Instr) (rd : Reg) (f : State → Except Stop Byte) : Prop where
  exec_eq : ∀ s, exec i s = complete s (f s >>= fun v => pure (s.writeE rd v))
  reads : ∀ s e', (∀ r ∈ sourcesOf i, (s.withE e').readE r = s.readE r) → f (s.withE e') = f s
  writesReg_eq : ∀ r, writesReg i r = (r == rd)

/-- A field command of two sources whose function is total. -/
theorem writesOne_binary {i : Instr} {rd rs1 rs2 : Reg} {g : Byte → Byte → Byte}
    (hexec : ∀ s, exec i s = complete s (.ok (s.writeE rd (g (s.readE rs1) (s.readE rs2)))))
    (hsrc : sourcesOf i = [rs1, rs2]) (hreg : ∀ r, writesReg i r = (r == rd)) :
    WritesOne i rd fun s => .ok (g (s.readE rs1) (s.readE rs2)) where
  exec_eq := hexec
  reads s e' h := by
    simp only [hsrc, List.forall_mem_cons] at h
    obtain ⟨h1, h2, -⟩ := h
    rw [h1, h2]
  writesReg_eq := hreg

theorem writesOne_finv (rd rs1 : Reg) : WritesOne (.finv rd rs1) rd fun s => do
    raiseIf (s.readE rs1 == 0x00) .divideByZero (regInfo rs1)
    return ginv (s.readE rs1) where
  exec_eq s := by simp only [exec, execFinv, bind_assoc, pure_bind]
  reads s e' h := by simp only [h rs1 (by simp [sourcesOf])]
  writesReg_eq _ := rfl

theorem writesOne_fdiv (rd rs1 rs2 : Reg) : WritesOne (.fdiv rd rs1 rs2) rd fun s => do
    raiseIf (s.readE rs2 == 0x00) .divideByZero (regInfo rs2)
    return gdiv (s.readE rs1) (s.readE rs2) where
  exec_eq s := by simp only [exec, execFdiv, bind_assoc, pure_bind]
  reads s e' h := by simp only [h rs1 (by simp [sourcesOf]), h rs2 (by simp [sourcesOf])]
  writesReg_eq _ := rfl

theorem writesOne_peval (rd rs1 rs2 : Reg) (addr : Addr) : WritesOne (.peval rd rs1 rs2 addr) rd fun s => do
    requireRange addr.toNat (s.readE rs2).toNat
    s.horner (s.readE rs1) addr.toNat (s.readE rs2).toNat 0x00 where
  exec_eq s := by simp only [exec, execPeval, bind_assoc]
  reads s e' h := by simp only [h rs1 (by simp [sourcesOf]), h rs2 (by simp [sourcesOf]), horner_withE]
  writesReg_eq _ := rfl

/-- The commands by what they write: one register, LMEM, or all storage. -/
theorem writesOne_or (i : Instr) : (writesLmem i = false ∧ ∃ rd f, WritesOne i rd f)
    ∨ (∃ addr, i = .lagr addr) ∨ (∃ rs1 addr, i = .st rs1 addr) ∨ i = .wipe := by
  cases i with
  | fadd rd rs1 rs2 => exact .inl ⟨rfl, rd, _, writesOne_binary (fun _ => rfl) rfl fun _ => rfl⟩
  | fsub rd rs1 rs2 => exact .inl ⟨rfl, rd, _, writesOne_binary (fun _ => rfl) rfl fun _ => rfl⟩
  | fmul rd rs1 rs2 => exact .inl ⟨rfl, rd, _, writesOne_binary (fun _ => rfl) rfl fun _ => rfl⟩
  | finv rd rs1 => exact .inl ⟨rfl, rd, _, writesOne_finv rd rs1⟩
  | fdiv rd rs1 rs2 => exact .inl ⟨rfl, rd, _, writesOne_fdiv rd rs1 rs2⟩
  | peval rd rs1 rs2 addr => exact .inl ⟨rfl, rd, _, writesOne_peval rd rs1 rs2 addr⟩
  | ldi rd imm8 => exact .inl ⟨rfl, rd, fun _ => .ok imm8, fun _ => rfl, fun _ _ _ => rfl, fun _ => rfl⟩
  | ld rd addr => exact .inl ⟨rfl, rd, (·.memRead addr.toNat), fun _ => rfl, fun _ _ _ => rfl, fun _ => rfl⟩
  | lagr addr => exact .inr (.inl ⟨addr, rfl⟩)
  | st rs1 addr => exact .inr (.inr (.inl ⟨rs1, addr, rfl⟩))
  | wipe => exact .inr (.inr (.inr rfl))

/-- All a command of one register can do: write the byte it computed, or record an error. -/
theorem WritesOne.exec_cases {i : Instr} {rd : Reg} {f : State → Except Stop Byte} (hi : WritesOne i rd f)
    {s t : State} (h : exec i s = .next t) :
    (∃ v, f s = .ok v ∧ t = (s.writeE rd v).recordDone) ∨ ∃ c w, f s = .error (.raised c w) ∧ t = s.recordError c w := by
  rw [hi.exec_eq] at h
  rcases complete_cases h with ⟨u, hu, rfl⟩ | ⟨c, w, hr, rfl⟩
  · obtain ⟨v, hv, hu⟩ := bind_eq_ok.1 hu
    obtain rfl := Except.ok.inj hu
    exact .inl ⟨v, hv, rfl⟩
  · rcases bind_eq_error.1 hr with hr | ⟨_, -, hr⟩
    · exact .inr ⟨c, w, hr, rfl⟩
    · cases hr

/-- A command leaves every register its row does not write (10_state R24). -/
theorem exec_readE {i : Instr} {s t : State} (h : exec i s = .next t) {r : Reg} (hr : writesReg i r = false) :
    t.readE r = s.readE r := by
  rcases writesOne_or i with ⟨-, rd, f, hi⟩ | ⟨addr, rfl⟩ | ⟨rs1, addr, rfl⟩ | rfl
  · rcases hi.exec_cases h with ⟨v, -, rfl⟩ | ⟨c, w, -, rfl⟩
    · have hne : r ≠ rd := by simpa [hi.writesReg_eq] using hr
      rw [readE_recordDone, readE_writeE, if_neg hne]
    · rfl
  · exact readE_congr (exec_lagr_e h) r
  · rw [exec_st_eq] at h
    obtain rfl := Host.Outcome.next.inj h
    rfl
  · cases hr

/-- Every command but LAGR, ST and WIPE leaves LMEM (70_reset R262). -/
theorem exec_sameLmem {i : Instr} {s t : State} (h : exec i s = .next t) (hi : writesLmem i = false) :
    SameLmem s t := by
  rcases writesOne_or i with ⟨-, rd, f, hf⟩ | ⟨addr, rfl⟩ | ⟨rs1, addr, rfl⟩ | rfl
  · rcases hf.exec_cases h with ⟨v, -, rfl⟩ | ⟨c, w, -, rfl⟩ <;> exact fun _ => rfl
  all_goals cases hi

/-- What two completions of the command i agree on: the recorded outcome, LMEM, and the registers i writes. -/
def SameOutcome (i : Instr) (t t' : State) : Prop :=
  t'.lmem = t.lmem ∧ t'.err = t.err ∧ t'.errCode = t.errCode ∧ t'.errInfo = t.errInfo
    ∧ (t.err = false → ∀ r, writesReg i r = true → t'.readE r = t.readE r)

theorem WritesOne.exec_withE {i : Instr} {rd : Reg} {f : State → Except Stop Byte} (hi : WritesOne i rd f)
    {s t : State} {e' : Vector Byte 16} (hsrc : ∀ r ∈ sourcesOf i, (s.withE e').readE r = s.readE r)
    (h : exec i s = .next t) : ∃ t', exec i (s.withE e') = .next t' ∧ SameOutcome i t t' := by
  rw [hi.exec_eq, hi.reads s e' hsrc]
  rcases hi.exec_cases h with ⟨v, hv, rfl⟩ | ⟨c, w, hr, rfl⟩
  · rw [hv]
    refine ⟨_, rfl, rfl, rfl, rfl, rfl, fun _ r hr => ?_⟩
    have hrd : r = rd := by simpa [hi.writesReg_eq] using hr
    rw [readE_recordDone, readE_recordDone, readE_writeE, readE_writeE, if_pos hrd, if_pos hrd]
  · rw [hr]
    exact ⟨_, rfl, rfl, rfl, rfl, rfl, nofun⟩

/-- A command that writes no register reaches the same outcome on every e'. -/
theorem sameOutcome_withE {i : Instr} (hi : ∀ r, writesReg i r = false) (t : State) (e' : Vector Byte 16) :
    SameOutcome i t (t.withE e') :=
  ⟨rfl, rfl, rfl, rfl, fun _ r hr => by simp [hi] at hr⟩

/-- No command reads a register other than its sources (10_state R24). -/
theorem exec_withE {i : Instr} {s t : State} {e' : Vector Byte 16}
    (hsrc : ∀ r ∈ sourcesOf i, (s.withE e').readE r = s.readE r) (h : exec i s = .next t) :
    ∃ t', exec i (s.withE e') = .next t' ∧ SameOutcome i t t' := by
  rcases writesOne_or i with ⟨-, rd, f, hi⟩ | ⟨addr, rfl⟩ | ⟨rs1, addr, rfl⟩ | rfl
  · exact hi.exec_withE hsrc h
  · exact ⟨_, exec_lagr_withE e' h, sameOutcome_withE (fun _ => rfl) t e'⟩
  · exact ⟨_, exec_st_withE (hsrc rs1 (List.mem_cons_self ..)) h, sameOutcome_withE (fun _ => rfl) t e'⟩
  · obtain rfl := Host.Outcome.next.inj h
    exact ⟨_, rfl, rfl, rfl, rfl, rfl, fun _ _ _ => rfl⟩

/-- Settles O30. The premise ERR = 0 is not needed. -/
theorem commandsReachOnlyTheirRegisters : Obligations.CommandsReachOnlyTheirRegisters :=
  ⟨fun _ _ _ h => ⟨fun _ => exec_readE h, exec_sameLmem h⟩, fun _ _ _ _ _ hsrc h => exec_withE hsrc h⟩

end Sys2Proof.Machine

end

/-! ### What ends ERR, and what changes storage (10_state R24, R33, 20_memory R62, R66, R67, 70_reset R262) -/

section

namespace Sys2Proof.Machine

/-- Of the effects of a host write only CTRL.CLR and CTRL.SRST end ERR. -/
theorem WriteEffect.err {s u : State} {off : Nat} {d : Word} (h : WriteEffect s off d u) (hs : s.err = true) :
    u.err = true ∨ off = 0x00C ∧ (d.getLsbD 1 = true ∨ d.getLsbD 2 = true) := by
  cases h with
  | ignored | discarded | accepted | enabled | element | lmem => exact .inl hs
  | softReset hoff hsrst => exact .inr ⟨hoff, .inr hsrst⟩
  | cleared hoff hclr => exact .inr ⟨hoff, .inl hclr⟩

/-- No completion ends ERR. -/
theorem Answered.err {s t : State} (h : Answered s t) (hs : s.err = true) : t.err = true := by
  rcases h with ⟨u, ⟨hu, -⟩, rfl⟩ | ⟨c, w, rfl⟩
  · rw [hu]
    exact hs
  · rfl

/-- Settles O56, over the four kinds of step. -/
theorem errStaysUntilCleared : Obligations.ErrStaysUntilCleared := by
  refine ⟨fun s t hs h => ?_, fun s w hs => ?_⟩
  · cases step_to h with
    | completes c _ ht => exact .inl ((completeWord_answered ht).err hs)
    | edge b rest hx _ => exact .inr (.inl ⟨b, rest, hx⟩)
    | wrote off d rest hx _ u hu r ht =>
      rcases hu.err hs with hu | ⟨rfl, hd⟩
      · exact .inl (ht ▸ hu)
      · exact .inr (.inr ⟨d, rest, hx, hd⟩)
    | held ht => exact .inl (ht ▸ hs)
  · rw [hostWrite_cmd, writeCmd_discard w (.inr hs)]
    rfl

/-- With PEND empty there is nothing to abort, and a soft reset leaves LMEM. -/
theorem lmemAt_softReset_idle {s : State} (h : s.pend = none) (a : Nat) : s.softReset.lmemAt a = s.lmemAt a := by
  have habort : s.abort = s := by simp [State.abort, h]
  rw [State.softReset, habort]
  rfl

/-- The effects of a host write that reach an element register. -/
theorem WriteEffect.readE {s u : State} {off : Nat} {d : Word} (h : WriteEffect s off d u) {r : Reg}
    (hr : u.readE r ≠ s.readE r) : (0x040 ≤ off ∧ off ≤ 0x07C) ∨ (off = 0x00C ∧ d.getLsbD 2 = true) := by
  cases h with
  | ignored | discarded | accepted | cleared | enabled | lmem => exact absurd rfl hr
  | softReset hoff hsrst => exact .inr ⟨hoff, hsrst⟩
  | element k hoff =>
    have := k.isLt
    omega

/-- The effects of a host write that reach a byte of LMEM. -/
theorem WriteEffect.lmemAt {s u : State} {off : Nat} {d : Word} (h : WriteEffect s off d u) {a : Nat}
    (ha : u.lmemAt a ≠ s.lmemAt a) :
    (0x1000 ≤ off ∧ off ≤ 0x1FFC) ∨ (off = 0x00C ∧ d.getLsbD 2 = true ∧ s.pend ≠ none) := by
  cases h with
  | ignored | discarded | accepted | cleared | enabled | element => exact absurd rfl ha
  | softReset hoff hsrst => exact .inr ⟨hoff, hsrst, fun hp => ha (lmemAt_softReset_idle hp a)⟩
  | lmem base hoff hbase => omega

/-- A completion that changes an element register is of a command whose row writes it. -/
theorem completeWord_readE {c : Word} {s t : State} (h : completeWord c s = .next t) {r : Reg}
    (hr : t.readE r ≠ s.readE r) : ∃ i, decode c = some i ∧ writesReg i r = true := by
  rcases completeWord_cases h with ⟨i, hi, hx⟩ | ⟨-, rfl⟩
  · exact ⟨i, hi, by_contra fun hw => hr (exec_readE hx (by simpa using hw))⟩
  · exact absurd rfl hr

/-- A completion that changes a byte of LMEM is of a command that may write LMEM. -/
theorem completeWord_lmemAt {c : Word} {s t : State} (h : completeWord c s = .next t) {a : Nat}
    (ha : t.lmemAt a ≠ s.lmemAt a) : ∃ i, decode c = some i ∧ writesLmem i = true := by
  rcases completeWord_cases h with ⟨i, hi, hx⟩ | ⟨-, rfl⟩
  · exact ⟨i, hi, by_contra fun hw => ha (exec_sameLmem hx (by simpa using hw) a)⟩
  · exact absurd rfl ha

/-- Settles O57, over the four kinds of step. -/
theorem storageChangesOnlyBy : Obligations.StorageChangesOnlyBy := by
  intro s t h
  cases step_to h with
  | completes c hc ht =>
    refine ⟨fun ⟨r, hr⟩ => ?_, fun ⟨a, ha⟩ => ?_⟩
    · obtain ⟨i, hi, hw⟩ := completeWord_readE ht hr
      exact .inl ⟨c, i, r, hc, hi, hw⟩
    · obtain ⟨i, hi, hw⟩ := completeWord_lmemAt ht ha
      exact .inl ⟨c, i, hc, hi, hw⟩
  | edge b rest hx _ => exact ⟨fun _ => .inr (.inl ⟨b, rest, hx⟩), fun _ => .inr (.inl ⟨b, rest, hx⟩)⟩
  | wrote off d rest hx _ u hu r ht =>
    subst ht
    exact ⟨fun ⟨_, hr⟩ => .inr (.inr ⟨off, d, rest, hx, hu.readE hr⟩),
      fun ⟨_, ha⟩ => .inr (.inr ⟨off, d, rest, hx, hu.lmemAt ha⟩)⟩
  | held ht =>
    rw [ht]
    exact ⟨fun ⟨_, hr⟩ => absurd rfl hr, fun ⟨_, ha⟩ => absurd rfl ha⟩

end Sys2Proof.Machine

end

/-! ### The control registers as the host sees them (10_state R32, R35, R38, R42) -/

section

namespace Sys2Proof.Machine

@[simp] theorem hostRead_ctrl (s : State) : s.hostRead 0x00C = (.ok, s.ctrlWord) := rfl

theorem ctrlWord_eq (s : State) : s.ctrlWord = if s.ie then 0x00000001 else 0x00000000 := by
  unfold State.ctrlWord
  cases s.ie <;> rfl

/-- Settles O41: each register by its listed value, CMD by acceptance while BUSY and ERR are 0. -/
theorem resetStateIsAsListed : Obligations.ResetStateIsAsListed :=
  ⟨readE_zero rfl, fun _ => rfl, rfl, rfl, rfl, rfl, rfl, rfl, rfl, fun _ => rfl⟩

/-- Settles O52. -/
theorem ctrlWriteRule : Obligations.CtrlWriteRule := by
  intro s w
  refine ⟨?_, fun h2 => ?_, fun h2 h1 => ?_, fun h2 h1 => ?_⟩
  · rw [hostRead_ctrl, ctrlWord_eq]
  · rw [hostWrite_ctrl, writeCtrl_softReset h2]
  · rw [hostWrite_ctrl, writeCtrl_enable h2 h1]
  · rw [hostWrite_ctrl, writeCtrl_clear h2 h1]
    rfl

/-- STATUS bit by bit (10_state R32). -/
theorem getLsbD_statusWord (s : State) (n : Nat) : s.statusWord.getLsbD n =
    if n = 0 then s.busy else if n = 1 then s.done else if n = 2 then s.err else if n = 3 then s.ovr
    else if n < 8 then false else if n < 16 then s.errCode.getLsbD (n - 8) else false := by
  have hsub : n - 1 - 1 - 1 - 1 - 4 = n - 8 := by omega
  simp only [State.statusWord, BitVec.getLsbD_append, BitVec.getLsbD_ofBool, BitVec.getLsbD_zero, hsub]
  grind

/-- A field of STATUS is known by its bits. -/
theorem extractLsb'_statusWord {s : State} {lo len : Nat} {x : BitVec len}
    (h : ∀ i < len, s.statusWord.getLsbD (lo + i) = x.getLsbD i) : s.statusWord.extractLsb' lo len = x := by
  apply BitVec.eq_of_getLsbD_eq
  intro i hi
  rw [BitVec.getLsbD_extractLsb', decide_eq_true hi, Bool.true_and, h i hi]

/-- Settles O53: the flags are bits of STATUS, and the other fields follow bit by bit. -/
theorem statusWordLayout : Obligations.StatusWordLayout := by
  intro s
  refine ⟨s.statusWord, rfl, getLsbD_statusWord s 0, getLsbD_statusWord s 1, getLsbD_statusWord s 2,
    getLsbD_statusWord s 3, ?_, ?_, ?_⟩
  all_goals
    refine extractLsb'_statusWord fun i hi => ?_
    rw [getLsbD_statusWord]
    grind

theorem irq_iff (s : State) : s.irq = true ↔ s.ie = true ∧ (s.done = true ∨ s.err = true) := by
  simp [State.irq]

/-- irq is low where DONE and ERR are 0. -/
theorem irq_low {s : State} (hdone : s.done = false) (herr : s.err = false) : s.irq = false := by
  simp [State.irq, hdone, herr]

/-- Settles O54: each event leaves DONE = 0 and ERR = 0. -/
theorem interruptLevel : Obligations.InterruptLevel := by
  refine ⟨irq_iff, fun _ _ => rfl, fun s w h2 h1 => ?_, fun s w hbusy herr => ?_, fun s w h2 => ?_,
    fun _ _ => irq_low rfl rfl⟩
  · rw [hostWrite_ctrl, writeCtrl_clear h2 h1]
    exact irq_low rfl rfl
  · rw [hostWrite_cmd, writeCmd_accept w hbusy herr]
    exact irq_low rfl herr
  · rw [hostWrite_ctrl, writeCtrl_softReset h2, softReset_frame]
    exact irq_low rfl rfl

end Sys2Proof.Machine

end

/-! ### The host's window (20_memory R63 to R67, R71 to R75)

A transaction is settled by the place its offset leads to (`hostRead_of_placeOf`, `hostWrite_of_placeOf`), and the busy
rules by whether that place is storage (`Place.isStorage`). -/

section

namespace Sys2Proof.Machine

/-- The word maps E or LMEM, which the unit withholds while BUSY (20_memory R71). -/
def Place.isStorage : Place → Bool
  | .element _ | .lmem _ => true
  | .id | .cmd | .status | .ctrl | .errInfo | .reserved => false

/-- The offset is a word of the E window or of the LMEM window (20_memory R63). -/
abbrev StorageOffset (off : Nat) : Prop :=
  off % 4 = 0 ∧ ((0x040 ≤ off ∧ off ≤ 0x07C) ∨ (0x1000 ≤ off ∧ off ≤ 0x1FFC))

theorem exists_placeOf {off : Nat} (h : ¬ (off % 4 ≠ 0 ∨ 0x2000 ≤ off)) : ∃ p, placeOf off = some p :=
  Option.ne_none_iff_exists'.1 (mt placeOf_eq_none.1 h)

theorem storageOffset_iff {off : Nat} {p : Place} (hp : placeOf off = some p) :
    StorageOffset off ↔ p.isStorage = true := by
  obtain ⟨h4, -, hoff⟩ := placeOf_cases hp
  cases p with
  | id | cmd | status | ctrl | errInfo | reserved =>
    dsimp only at hoff
    refine iff_of_false ?_ Bool.false_ne_true
    omega
  | element k =>
    have hk := k.isLt
    dsimp only at hoff
    exact iff_of_true (by omega) rfl
  | lmem base =>
    dsimp only at hoff
    exact iff_of_true (by omega) rfl

theorem placeOf_storageOffset {off : Nat} (h : StorageOffset off) :
    ∃ p, placeOf off = some p ∧ p.isStorage = true := by
  obtain ⟨p, hp⟩ := exists_placeOf (off := off) (by omega)
  exact ⟨p, hp, (storageOffset_iff hp).1 h⟩

theorem hostRead_of_placeOf {off : Nat} {p : Place} (h : placeOf off = some p) (s : State) :
    s.hostRead off = (.ok, s.readPlace p) := by
  rw [State.hostRead, h]

theorem hostWrite_of_placeOf {off : Nat} {p : Place} (h : placeOf off = some p) (s : State) (d : Word) :
    s.hostWrite off d = (.ok, s.writePlace p d) := by
  rw [State.hostWrite, h]

theorem hostRead_of_none {off : Nat} (h : placeOf off = none) (s : State) : s.hostRead off = (.error, 0x00000000) := by
  rw [State.hostRead, h]

theorem hostWrite_of_none {off : Nat} (h : placeOf off = none) (s : State) (d : Word) :
    s.hostWrite off d = (.error, s) := by
  rw [State.hostWrite, h]

/-- While BUSY a word of E or LMEM reads as 0 (20_memory R71). -/
theorem readPlace_busy {s : State} {p : Place} (hp : p.isStorage = true) (hs : s.busy = true) : s.readPlace p = 0 := by
  cases p with
  | id | cmd | status | ctrl | errInfo | reserved => cases hp
  | element k => exact if_pos hs
  | lmem base => exact if_pos hs

/-- While BUSY a write to a word of E or LMEM is discarded (20_memory R72). -/
theorem writePlace_busy {s : State} {p : Place} (hp : p.isStorage = true) (hs : s.busy = true) (d : Word) :
    s.writePlace p d = s.discard := by
  cases p with
  | id | cmd | status | ctrl | errInfo | reserved => cases hp
  | element k => exact if_pos hs
  | lmem base => exact if_pos hs

theorem writePlace_element {s : State} (hs : s.busy = false) (k : Reg) (d : Word) :
    s.writePlace (.element k) d = s.writeE k (d.setWidth 8) := by
  rw [State.writePlace, hs, if_neg Bool.false_ne_true, ← BitVec.setWidth_eq_extractLsb' (by omega)]

theorem writePlace_lmem {s : State} (hs : s.busy = false) (base : Nat) (d : Word) :
    s.writePlace (.lmem base) d = s.putWord base d := by
  rw [State.writePlace, hs, if_neg Bool.false_ne_true]

/-- Settles O47: the offset leads to the word of E[k], whose two cases are BUSY and idle. -/
theorem elementWindow : Obligations.ElementWindow := by
  intro s k d
  have hp := placeOf_element k
  refine ⟨hostRead_of_placeOf hp s, _, hostWrite_of_placeOf hp s d, fun hs => writePlace_busy rfl hs d,
    fun hs => ?_⟩
  rw [writePlace_element hs]
  exact ⟨rfl, fun r => readE_writeE s k r _⟩

/-- Settles O48: the offset leads to the word of the bytes from 4w, whose two cases are BUSY and idle. -/
theorem lmemWindow : Obligations.LmemWindow := by
  intro s w d hw
  have hp := placeOf_lmem hw
  refine ⟨hostRead_of_placeOf hp s, _, hostWrite_of_placeOf hp s d, fun hs => writePlace_busy rfl hs d,
    fun hs => ?_⟩
  rw [writePlace_lmem hs]
  exact ⟨putWord_frame s (4 * w) d, fun a => lmemAt_putWord s (4 * w) a d⟩

/-- While BUSY no word shows E or LMEM (20_memory R71). -/
theorem readPlace_storage_hidden {s : State} (hs : s.busy = true) (e' : Vector Byte 16) (m : List Host.Cell) (n : Nat)
    (p : Place) : { s with e := e', lmem := m, lmemDraw := n }.readPlace p = s.readPlace p := by
  cases p with
  | id | cmd | status | ctrl | errInfo | reserved => rfl
  | element k => exact Eq.trans (readPlace_busy rfl hs) (Eq.symm (readPlace_busy rfl hs))
  | lmem base => exact Eq.trans (readPlace_busy rfl hs) (Eq.symm (readPlace_busy rfl hs))

/-- Settles O49: two busy states that differ in E and LMEM alone agree on every place, and so on every offset. -/
theorem busyHidesElementsAndLmem : Obligations.BusyHidesElementsAndLmem := by
  refine ⟨fun s off hs h4 hoff => ?_, fun _ => ⟨rfl, rfl, rfl, rfl, rfl⟩, fun s e' m n off hs => ?_⟩
  · obtain ⟨p, hp, hstorage⟩ := placeOf_storageOffset ⟨h4, hoff⟩
    rw [hostRead_of_placeOf hp, readPlace_busy hstorage hs]
  · cases hp : placeOf off with
    | none => rw [hostRead_of_none hp, hostRead_of_none hp]
    | some p => rw [hostRead_of_placeOf hp, hostRead_of_placeOf hp, readPlace_storage_hidden hs]

/-- No write to CTRL sets OVR (10_state R35). -/
theorem writeCtrl_ovr {s : State} {d : Word} (h : (s.writeCtrl d).ovr = true) : s.ovr = true := by
  cases h2 : d.getLsbD 2 with
  | true =>
    rw [writeCtrl_softReset h2, softReset_frame] at h
    cases h
  | false =>
    cases h1 : d.getLsbD 1 with
    | true =>
      rw [writeCtrl_clear h2 h1] at h
      cases h
    | false =>
      rw [writeCtrl_enable h2 h1] at h
      exact h

/-- Only a discarded write sets OVR: to storage while BUSY, or to CMD while BUSY or ERR (20_memory R72). -/
theorem writePlace_ovr {s : State} {p : Place} {d : Word} (h : (s.writePlace p d).ovr = true) :
    s.ovr = true ∨ (p.isStorage = true ∧ s.busy = true) ∨ (p = .cmd ∧ (s.busy = true ∨ s.err = true)) := by
  cases p with
  | id | status | errInfo | reserved => exact .inl h
  | ctrl => exact .inl (writeCtrl_ovr h)
  | cmd =>
    by_cases hd : s.busy = true ∨ s.err = true
    · exact .inr (.inr ⟨rfl, hd⟩)
    · obtain ⟨hbusy, herr⟩ : s.busy = false ∧ s.err = false := by simpa using hd
      rw [State.writePlace, writeCmd_accept d hbusy herr] at h
      exact .inl h
  | element k =>
    cases hs : s.busy with
    | true => exact .inr (.inl ⟨rfl, rfl⟩)
    | false =>
      rw [writePlace_element hs] at h
      exact .inl h
  | lmem base =>
    cases hs : s.busy with
    | true => exact .inr (.inl ⟨rfl, rfl⟩)
    | false =>
      rw [writePlace_lmem hs] at h
      exact .inl h

/-- Settles O50: a discarded write leads to storage or to CMD, and `writePlace_ovr` names every write that sets OVR. -/
theorem discardedWritesSetOvr : Obligations.DiscardedWritesSetOvr := by
  intro s off d
  refine ⟨?_, fun hkept h => ?_⟩
  · rintro (⟨h4, hoff, hs⟩ | ⟨rfl, hs⟩)
    · obtain ⟨p, hp, hstorage⟩ := placeOf_storageOffset ⟨h4, hoff⟩
      rw [hostWrite_of_placeOf hp, writePlace_busy hstorage hs]
      rfl
    · rw [hostWrite_cmd, writeCmd_discard d hs]
      rfl
  · cases hp : placeOf off with
    | none =>
      rw [hostWrite_of_none hp] at h
      exact h
    | some p =>
      rw [hostWrite_of_placeOf hp] at h
      rcases writePlace_ovr h with hovr | ⟨hstorage, hs⟩ | ⟨rfl, hs⟩
      · exact hovr
      · obtain ⟨h4, hoff⟩ := (storageOffset_iff hp).2 hstorage
        exact absurd (.inl ⟨h4, hoff, hs⟩) hkept
      · obtain ⟨-, -, hoff⟩ := placeOf_cases hp
        exact absurd (.inr ⟨hoff, hs⟩) hkept

/-- Settles O45. -/
theorem badOffsetsAnswerError : Obligations.BadOffsetsAnswerError := by
  intro s off d
  refine ⟨fun hbad => ?_, fun hgood => ?_⟩
  · have hp := placeOf_eq_none.2 hbad
    exact ⟨hostRead_of_none hp s, hostWrite_of_none hp s d⟩
  · obtain ⟨p, hp⟩ := exists_placeOf hgood
    rw [hostRead_of_placeOf hp, hostWrite_of_placeOf hp]
    exact ⟨rfl, rfl⟩

/-- Settles O46. -/
theorem reservedAndReadOnlyWords : Obligations.ReservedAndReadOnlyWords := by
  refine ⟨fun s off d h4 hoff => ?_, fun _ _ => ⟨rfl, rfl, rfl⟩⟩
  have hp := placeOf_reserved h4 hoff
  exact ⟨hostRead_of_placeOf hp s, hostWrite_of_placeOf hp s d⟩

/-- Settles O51. -/
theorem cmdAcceptance : Obligations.CmdAcceptance := by
  intro s w
  refine ⟨fun hs => ?_, fun hbusy herr => ?_⟩
  · rw [hostWrite_cmd, writeCmd_discard w hs]
    rfl
  · rw [hostWrite_cmd, writeCmd_accept w hbusy herr]
    exact ⟨rfl, rfl⟩

/-- No read looks at the answers given before it. -/
theorem hostRead_answer (s : State) (r : Response) (off : Nat) : (s.answer r).hostRead off = s.hostRead off := by
  cases hp : placeOf off with
  | none => rw [hostRead_of_none hp, hostRead_of_none hp]
  | some p =>
    rw [hostRead_of_placeOf hp, hostRead_of_placeOf hp]
    cases p <;> rfl

/-- Settles O55. -/
theorem hostReadsHaveNoEffect : Obligations.HostReadsHaveNoEffect :=
  fun s off => ⟨rfl, hostRead_answer s _ off⟩

end Sys2Proof.Machine

end

/-! ### Which step is next, and that every run settles (20_memory R77, R78, 70_reset R269, R270)

`State.workLeft` counts what a run still has to do. Every step takes at least one from it, since an arrival counts two
and can add one accepted command. -/

section

namespace Sys2Proof.Machine

theorem completeWord_of_decode {c : Word} {i : Instr} (h : decode c = some i) (s : State) :
    completeWord c s = exec i s := by
  rw [completeWord, h]

/-- Settles O34. -/
theorem stepRunsDecodedCommand : Obligations.StepRunsDecodedCommand := by
  intro s c i hc hi
  rw [step_completes hc, completeWord_of_decode hi]

/-- Settles O35. -/
theorem stepDeliversArrivals : Obligations.StepDeliversArrivals := by
  refine ⟨fun _ _ _ => step_receives, fun _ => step_idle, fun s off d hrst => ?_, fun s off d hrst => ?_⟩
  · obtain ⟨-, -, hresponses, -⟩ := hostWrite_frame s off d
    rw [State.deliver, deliverWrite_released hrst, State.answer, hresponses]
  · rw [State.deliver, deliverWrite_asserted hrst]
    rfl

theorem withAccepted_completesNext (s : State) (w : Word) : (s.withAccepted w).CompletesNext w := by
  refine ⟨rfl, ?_⟩
  cases hi : s.inputs with
  | nil => simp [State.completesNow, State.withAccepted, State.holdArrivals, hi]
  | cons a rest => simp [State.completesNow, State.withAccepted, State.holdArrivals, hi]

/-- Settles O36, as the case of O34 for an accepted word. -/
theorem placedWordRunsNext : Obligations.PlacedWordRunsNext :=
  fun s _ _ _ hi => stepRunsDecodedCommand _ _ _ (withAccepted_completesNext s _) hi

/-- What a run still has to do: two steps for each arrival, its delivery and the completion of the command it may bring,
and one for the pending command. -/
def State.workLeft (s : State) : Nat :=
  2 * s.inputs.length + if s.pend.isSome then 1 else 0

theorem workLeft_le (s : State) : s.workLeft ≤ 2 * s.inputs.length + 1 := by
  unfold State.workLeft
  split <;> omega

theorem settled_iff_workLeft (s : State) : s.Settled ↔ s.workLeft = 0 := by
  simp [State.Settled, State.workLeft]

/-- Every step takes at least one from the work that is left. -/
theorem workLeft_step {s t : State} (h : step s = .next t) : t.workLeft ≤ s.workLeft - 1 := by
  rcases step_cases s with ⟨c, hc⟩ | ⟨x, rest, hx⟩ | hs
  · rw [step_completes hc] at h
    obtain ⟨hpend, -, -, -, -, hinputs, -⟩ := (completeWord_answered h).control
    simp [State.workLeft, hpend, hinputs, hc.1]
  · rw [step_receives hx] at h
    obtain rfl := Host.Outcome.next.inj h
    obtain ⟨-, late, hi⟩ := hx
    have hs : 2 * rest.length + 2 ≤ s.workLeft := by
      rw [State.workLeft, hi, List.length_cons]
      omega
    have ht := workLeft_le ({ s with inputs := rest }.deliver x)
    rw [deliver_inputs] at ht
    dsimp only at ht
    omega
  · rw [step_idle hs] at h
    obtain rfl := Host.Outcome.next.inj h
    rw [(settled_iff_workLeft s).1 hs]

theorem run_succ_of_step {s u : State} (h : step s = .next u) (k : Nat) : core.run (k + 1) s = core.run k u := by
  have hcore : core.step s = .next u := h
  simp only [Host.Core.run, hcore]

/-- As many steps as there is work left settle the run. -/
theorem run_settles {k : Nat} {s : State} (h : s.workLeft ≤ k) :
    ∃ t, core.run k s = .next t ∧ State.Settled t := by
  induction k generalizing s with
  | zero => exact ⟨s, rfl, (settled_iff_workLeft s).2 (by omega)⟩
  | succ k ih =>
    obtain ⟨u, hu⟩ := goes_step s
    have := workLeft_step hu
    rw [run_succ_of_step hu]
    exact ih (by omega)

/-- Settles O58: a run of n arrivals has at most 2n + 1 steps of work. -/
theorem runSettles : Obligations.RunSettles :=
  fun s => run_settles (workLeft_le s)

end Sys2Proof.Machine

end

/-! ### Words and commands (30_encoding R106 to R112)

Every mask of the opcode table holds the byte OP, and no two rows share an opcode, so a word matches at most one row. A
word that matches a row is assembled from the fields of that row's command. IMM12 is the only field a row takes apart:
LDI has its low byte as the immediate and needs its high nibble to be 0. -/

section

namespace Sys2Proof

/-- IMM12 is its high nibble, bits 31:28 of the word, and LDI's immediate (30_encoding R104). -/
theorem highNibble_append_ldiImm (imm12 : BitVec 12) : imm12.extractLsb' 8 4 ++ ldiImm imm12 = imm12 :=
  BitVec.extractLsb'_append_extractLsb'

theorem ldiImm_append (hi : BitVec 4) (v : Byte) : ldiImm (hi ++ v) = v :=
  BitVec.extractLsb'_append_eq_right

theorem setWidth_byte_eq_append (v : Byte) : v.setWidth 12 = 0#4 ++ v :=
  BitVec.setWidth_eq_append (by decide)

theorem append_and_highNibble_eq_zero_iff (hi : BitVec 4) (v : Byte) : (hi ++ v) &&& 0xF00#12 = 0#12 ↔ hi = 0#4 := by
  have hhi : hi &&& 0xF#4 = hi := BitVec.and_allOnes
  rw [show 0xF00#12 = 0xF#4 ++ 0x00#8 from rfl, show 0#12 = 0#4 ++ 0x00#8 from rfl, BitVec.and_append, BitVec.and_zero,
    BitVec.append_left_inj, hhi]

theorem and_highNibble_eq_zero_iff (imm12 : BitVec 12) :
    imm12 &&& 0xF00#12 = 0#12 ↔ imm12.extractLsb' 8 4 = 0#4 := by
  conv_lhs => rw [← highNibble_append_ldiImm imm12, append_and_highNibble_eq_zero_iff]

theorem setWidth_byte_and_highNibble (v : Byte) : v.setWidth 12 &&& 0xF00#12 = 0#12 := by
  rw [setWidth_byte_eq_append, append_and_highNibble_eq_zero_iff]

theorem ldiImm_setWidth (v : Byte) : ldiImm (v.setWidth 12) = v := by
  rw [setWidth_byte_eq_append, ldiImm_append]

theorem setWidth_ldiImm {imm12 : BitVec 12} (h : imm12 &&& 0xF00#12 = 0#12) : (ldiImm imm12).setWidth 12 = imm12 := by
  rw [setWidth_byte_eq_append, ← (and_highNibble_eq_zero_iff imm12).1 h, highNibble_append_ldiImm]

/-- Settles O1: by the opcode, `decode_wordOf` takes the branch of the command's own row. -/
theorem decodeEncodeRoundTrip : Obligations.DecodeEncodeRoundTrip := by
  intro i
  rw [encode, decode_wordOf]
  cases i with
  | ldi rd imm8 => simp [instrFields, setWidth_byte_and_highNibble, ldiImm_setWidth]
  | fadd | fsub | fmul | finv | fdiv | peval | lagr | ld | st | wipe => simp [instrFields]

/-- What `decode` reads from a word is the command of a row the word matches. -/
theorem exists_row_of_decode {c : Word} {i : Instr} (h : decode c = some i) :
    ∃ r ∈ opcodeRows, rowMatches r c = true ∧ buildInstr r.op (fieldsOf c) = i := by
  obtain ⟨r, hr, hi⟩ := Option.map_eq_some_iff.1 h
  exact ⟨r, List.mem_of_find?_eq_some hr, by simpa using List.find?_some hr, hi⟩

theorem decode_eq_none_iff (c : Word) : decode c = none ↔ ∀ r ∈ opcodeRows, rowMatches r c = false := by
  simp [decode]

/-- A word that matches a row holds nothing but the fields of the row's command. -/
theorem instrFields_buildInstr (f : Fields) :
    ∀ r ∈ opcodeRows, rowMatches r (wordOf f) = true → instrFields (buildInstr r.op f) = f := by
  have hrows := rowMatches_iff f
  obtain ⟨op, rd, rs1, rs2, imm12⟩ := f
  simp only [opcodeRows, List.forall_mem_cons, hrows]
  refine ⟨?fadd, ?fsub, ?fmul, ?finv, ?fdiv, ?peval, ?lagr, ?ldi, ?ld, ?st, ?wipe, List.forall_mem_nil _⟩
  case fadd | fsub | fmul | fdiv => rintro ⟨rfl, rfl⟩; rfl
  case finv | ld | st => rintro ⟨rfl, rfl, rfl⟩; rfl
  case peval => rintro rfl; rfl
  case lagr => rintro ⟨rfl, rfl, rfl, rfl⟩; rfl
  case ldi =>
    rintro ⟨rfl, rfl, rfl, hhigh⟩
    rw [buildInstr, instrFields, setWidth_ldiImm hhigh]
  case wipe => rintro ⟨rfl, rfl, rfl, rfl, rfl⟩; rfl

/-- Settles O2. -/
theorem encodeDecodeRoundTrip : Obligations.EncodeDecodeRoundTrip := by
  intro c i h
  obtain ⟨r, hr, hc, rfl⟩ := exists_row_of_decode h
  rw [← wordOf_fieldsOf c] at hc
  rw [encode, instrFields_buildInstr _ r hr hc, wordOf_fieldsOf]

/-- The opcode map of R106 and the patterns of R107 describe the same words. -/
theorem wellFormed_iff_rowMatches (f : Fields) :
    f.wellFormed = true ↔ ∃ r ∈ opcodeRows, rowMatches r (wordOf f) = true := by
  simp only [opcodeRows, List.mem_cons, List.not_mem_nil, or_false, exists_eq_or_imp, exists_eq_left, rowMatches_iff f]
  simp only [Fields.wellFormed, Bool.or_eq_true, Bool.and_eq_true, beq_iff_eq, and_assoc, or_assoc,
    BitVec.ofNat_eq_ofNat, and_highNibble_eq_zero_iff]

/-- Settles O3: a word is refused when it matches no row, and `wellFormed_iff_rowMatches` says which words do. -/
theorem decodeRefusesExactlyIllegalWords : Obligations.DecodeRefusesExactlyIllegalWords := by
  intro c
  rw [decode_eq_none_iff, ← Bool.not_eq_true, wellFormed_iff_rowMatches, wordOf_fieldsOf]
  simp

/-- Every mask of the opcode table holds the whole byte OP. -/
theorem op_of_rowMatches {r : Row} {c : Word} (hr : r ∈ opcodeRows) (h : rowMatches r c = true) :
    c &&& 0xFF = r.pattern &&& 0xFF := by
  have hmask : ∀ r ∈ opcodeRows, r.mask &&& 0xFF = 0xFF := by decide
  rw [← eq_of_beq h, BitVec.and_assoc, hmask r hr]

theorem row_eq_of_op : ∀ r ∈ opcodeRows, ∀ r' ∈ opcodeRows, r.pattern &&& 0xFF = r'.pattern &&& 0xFF → r = r' := by
  decide

theorem row_eq_of_rowMatches {r r' : Row} {c : Word} (hr : r ∈ opcodeRows) (hr' : r' ∈ opcodeRows)
    (h : rowMatches r c = true) (h' : rowMatches r' c = true) : r = r' :=
  row_eq_of_op r hr r' hr' ((op_of_rowMatches hr h).symm.trans (op_of_rowMatches hr' h'))

/-- Settles O4: the row the decoder finds is the only one the word matches. -/
theorem everyWordMatchesAtMostOneRow : Obligations.EveryWordMatchesAtMostOneRow := by
  intro c
  cases h : decode c with
  | none => exact .inr ⟨(decode_eq_none_iff c).1 h, rfl⟩
  | some i =>
    obtain ⟨r, hr, hc, rfl⟩ := exists_row_of_decode h
    exact .inl ⟨r, hr, hc, fun r' hr' hc' => row_eq_of_rowMatches hr' hr hc' hc, rfl⟩

end Sys2Proof

namespace Sys2Proof.Machine

theorem completeWord_of_illegal {c : Word} (h : decode c = none) (s : State) :
    completeWord c s = .next (s.recordError .illegalCmd 0x00000000) := by
  rw [completeWord, h]

theorem hostRead_cmd (s : State) : s.hostRead 0x004 = (.ok, s.lastCmd) := rfl

/-- Settles O33: acceptance does not look at the word, and recording an error keeps LASTCMD. -/
theorem illegalWordRecordsIllegalCmd : Obligations.IllegalWordRecordsIllegalCmd := by
  refine ⟨fun c s _ hbusy herr => ?_, fun c s hc hnext hlast => ?_⟩
  · rw [hostWrite_cmd, writeCmd_accept c hbusy herr, State.accept]
  · refine ⟨s.recordError .illegalCmd 0x00000000, ?_, failed_recordError s _ _, ?_⟩
    · rw [step_completes hnext, completeWord_of_illegal hc]
    · rw [hostRead_cmd, State.recordError_lastCmd, hlast]

end Sys2Proof.Machine

end

/-! ### GF(2^8) is a field, and its product is the reduced carry-less product (40_field R130 to R134, R142)

A function additive in both bytes is determined by its values on pairs of single bits (`Biadditive.eq_of_bits`): the
product is commutative, and it is the carry-less product reduced modulo 0x11B, because that is so on the 64 pairs of
single bits. The loop of R133 keeps its accumulator a power of a, so `ginv a` is a^254. -/

section

namespace Sys2Proof.Machine

/-- The function distributes over field addition on both sides. -/
structure Biadditive (f : Byte → Byte → Byte) : Prop where
  left : ∀ a a' b, f (a ^^^ a') b = f a b ^^^ f a' b
  right : ∀ a b b', f a (b ^^^ b') = f a b ^^^ f a b'

theorem Biadditive.eq_of_bits {f g : Byte → Byte → Byte} (hf : Biadditive f) (hg : Biadditive g)
    (bits : ∀ k < 8, ∀ l < 8, f (0x01 <<< k) (0x01 <<< l) = g (0x01 <<< k) (0x01 <<< l)) (a b : Byte) :
    f a b = g a b := by
  induction a using byte_xor_induction with
  | xor a a' ha ha' => rw [hf.left, hg.left, ha, ha']
  | bit k hk =>
    induction b using byte_xor_induction with
    | xor b b' hb hb' => rw [hf.right, hg.right, hb, hb']
    | bit l hl => exact bits k hk l hl

theorem Biadditive.swap {f : Byte → Byte → Byte} (hf : Biadditive f) : Biadditive fun a b => f b a where
  left a a' b := hf.right b a a'
  right a b b' := hf.left b b' a

theorem biadditive_gmul : Biadditive gmul where
  left := gmul_xor_left
  right := gmul_xor_right

theorem gmul_comm (a b : Byte) : gmul a b = gmul b a :=
  biadditive_gmul.eq_of_bits biadditive_gmul.swap (by decide) a b

/-- Adding x under a condition is adding x or 0, for the steps of R132 that test one bit. -/
theorem ite_xor_eq_xor_ite {w : Nat} (c : Bool) (p x : BitVec w) :
    (if c then p ^^^ x else p) = p ^^^ if c then x else 0#w := by
  cases c <;> simp

theorem ite_xor_distrib {w : Nat} (c : Bool) (x y : BitVec w) :
    (if c then x ^^^ y else 0#w) = (if c then x else 0#w) ^^^ if c then y else 0#w := by
  cases c <;> simp

theorem ite_bne_eq_xor {w : Nat} (c d : Bool) (x : BitVec w) :
    (if c ^^ d then x else 0#w) = (if c then x else 0#w) ^^^ if d then x else 0#w := by
  cases c <;> cases d <;> simp

theorem bitVec_xor_xor_xor_comm {w : Nat} (p q x y : BitVec w) : (p ^^^ q) ^^^ (x ^^^ y) = (p ^^^ x) ^^^ (q ^^^ y) := by
  ac_rfl

theorem foldl_xor_xor {w : Nat} (l : List Nat) (f g : Nat → BitVec w) (p q : BitVec w) :
    l.foldl (fun acc i => acc ^^^ (f i ^^^ g i)) (p ^^^ q)
      = l.foldl (fun acc i => acc ^^^ f i) p ^^^ l.foldl (fun acc i => acc ^^^ g i) q := by
  induction l generalizing p q with
  | nil => rfl
  | cons i l ih => rw [List.foldl_cons, List.foldl_cons, List.foldl_cons, bitVec_xor_xor_xor_comm, ih]

theorem foldr_xor_of_additive {w : Nat} {step : Nat → BitVec w → BitVec w}
    (h : ∀ i p q, step i (p ^^^ q) = step i p ^^^ step i q) (l : List Nat) (p q : BitVec w) :
    l.foldr step (p ^^^ q) = l.foldr step p ^^^ l.foldr step q := by
  induction l with
  | nil => rfl
  | cons i l ih => rw [List.foldr_cons, List.foldr_cons, List.foldr_cons, ih, h]

/-- The carry-less product as the sum of a's shifts by the bits of b. -/
theorem carrylessProduct_eq (a b : Byte) : carrylessProduct a b
    = (List.range 8).foldl (fun p i => p ^^^ if b.getLsbD i then a.setWidth 16 <<< i else 0#16) 0#16 := by
  simp only [carrylessProduct, ite_xor_eq_xor_ite]

theorem carrylessProduct_xor_left (a a' b : Byte) :
    carrylessProduct (a ^^^ a') b = carrylessProduct a b ^^^ carrylessProduct a' b := by
  simp only [carrylessProduct_eq, ← foldl_xor_xor, BitVec.xor_zero, BitVec.setWidth_xor, BitVec.shiftLeft_xor_distrib,
    ite_xor_distrib]

theorem carrylessProduct_xor_right (a b b' : Byte) :
    carrylessProduct a (b ^^^ b') = carrylessProduct a b ^^^ carrylessProduct a b' := by
  simp only [carrylessProduct_eq, ← foldl_xor_xor, BitVec.xor_zero, BitVec.getLsbD_xor, ite_bne_eq_xor]

/-- Each step of the long division is additive: the bit it tests is. -/
theorem reduce11B_xor (p q : BitVec 16) : reduce11B (p ^^^ q) = reduce11B p ^^^ reduce11B q := by
  rw [reduce11B, foldr_xor_of_additive, BitVec.setWidth_xor, reduce11B, reduce11B]
  intro i p q
  simp only [ite_xor_eq_xor_ite, BitVec.getLsbD_xor, ite_bne_eq_xor, bitVec_xor_xor_xor_comm]

/-- Settles O7: both sides are biadditive, and they agree on single bits. -/
theorem gmulIsReducedCarrylessProduct : Obligations.GmulIsReducedCarrylessProduct := by
  have hreduced : Biadditive fun a b => reduce11B (carrylessProduct a b) :=
    ⟨fun a a' b => by rw [carrylessProduct_xor_left, reduce11B_xor],
      fun a b b' => by rw [carrylessProduct_xor_right, reduce11B_xor]⟩
  exact biadditive_gmul.eq_of_bits hreduced (by decide +kernel)

theorem one_gmul (a : Byte) : gmul 0x01 a = a := by
  rw [gmul_comm, gmul_one]

theorem gpow_add (a : Byte) (m n : Nat) : gpow a (m + n) = gmul (gpow a m) (gpow a n) := by
  induction n with
  | zero => exact (gmul_one _).symm
  | succ n ih => rw [← Nat.add_assoc, gpow, gpow, ih, gmul_assoc]

/-- The loop of R133 over the exponent's low k bits, from a power of a. -/
theorem ginvRounds_gpow (a : Byte) (k m : Nat) :
    ginvRounds a k (gpow a m) = gpow a (2 ^ k * m + 254 % 2 ^ k) := by
  induction k generalizing m with
  | zero => rw [ginvRounds, pow_zero, Nat.mod_one, one_mul, Nat.add_zero]
  | succ k ih =>
    have hround : (if Nat.testBit 254 k then gmul (gmul (gpow a m) (gpow a m)) a else gmul (gpow a m) (gpow a m))
        = gpow a (m + m + (Nat.testBit 254 k).toNat) := by
      rw [← gpow_add]
      cases Nat.testBit 254 k <;> rfl
    rw [ginvRounds, hround, ih, Nat.mod_pow_succ, Nat.toNat_testBit]
    congr 1
    ring

theorem ginv_eq_gpow (a : Byte) : ginv a = gpow a 254 :=
  ginvRounds_gpow a 8 0

/-- The inverse is the only byte whose product with a is 0x01. -/
theorem gmul_eq_one_iff {a : Byte} (ha : a ≠ 0x00) (b : Byte) : gmul a b = 0x01 ↔ b = ginv a := by
  constructor
  · intro h
    calc b = gmul (gmul a (ginv a)) b := by rw [gmul_ginv ha, one_gmul]
      _ = gmul (ginv a) (gmul a b) := by rw [gmul_comm a, gmul_assoc]
      _ = ginv a := by rw [h, gmul_one]
  · rintro rfl
    exact gmul_ginv ha

/-- Settles O8. That `ginv a` is a^254 needs no premise. -/
theorem inverseIsPower254AndUnique : Obligations.InverseIsPower254AndUnique :=
  fun a ha => ⟨ginv_eq_gpow a, gmul_eq_one_iff ha⟩

theorem gpow_255 {a : Byte} (ha : a ≠ 0x00) : gpow a 255 = 0x01 := by
  rw [gpow, ← ginv_eq_gpow, gmul_comm, gmul_ginv ha]

theorem eq_zero_or_eq_zero_of_gmul_eq_zero {a b : Byte} (h : gmul a b = 0x00) : a = 0x00 ∨ b = 0x00 := by
  by_contra! hne
  obtain ⟨ha, hb⟩ := hne
  exact gmul_ne_zero ha hb h

/-- Settles O6: `gadd` is XOR, and the laws of `gmul` are the lemmas above. -/
theorem fieldAxiomsHold : Obligations.FieldAxiomsHold :=
  ⟨⟨BitVec.xor_comm, BitVec.xor_assoc, fun _ => BitVec.xor_zero, fun _ => BitVec.xor_self⟩,
    ⟨gmul_comm, gmul_assoc, gmul_one, gmul_zero⟩, gmul_xor_right, fun _ _ => eq_zero_or_eq_zero_of_gmul_eq_zero,
    fun _ ha => ⟨gmul_ginv ha, gpow_255 ha⟩⟩

theorem ginv_ne_zero {a : Byte} (ha : a ≠ 0x00) : ginv a ≠ 0x00 := by
  intro h
  have hone := gmul_ginv ha
  rw [h, gmul_zero] at hone
  exact absurd hone (by decide)

theorem ginv_ginv {a : Byte} (ha : a ≠ 0x00) : ginv (ginv a) = a :=
  ((gmul_eq_one_iff (ginv_ne_zero ha) a).1 (by rw [gmul_comm, gmul_ginv ha])).symm

theorem ginv_one : ginv 0x01 = 0x01 :=
  ((gmul_eq_one_iff (by decide) _).1 (gmul_one 0x01)).symm

theorem gdiv_one (a : Byte) : gdiv a 0x01 = a := by
  rw [gdiv, ginv_one, gmul_one]

theorem gdiv_self {a : Byte} (ha : a ≠ 0x00) : gdiv a a = 0x01 :=
  gmul_ginv ha

theorem zero_gdiv (a : Byte) : gdiv 0x00 a = 0x00 :=
  zero_gmul (ginv a)

end Sys2Proof.Machine

end

/-! ### The words and the completion of a field command (40_field R135 to R139)

A command that computes one byte (`WritesOne`) writes it and succeeds, or records the error it raises. -/

section

namespace Sys2Proof.Machine

/-- What the words of an opcode mean follows from what the decoder reads from them (30_encoding R109, R112). -/
theorem wordMeans_of_decode {f : Fields} {z : Prop} [Decidable z] {i : Instr}
    (h : decode (wordOf f) = if z then some i else none) : WordMeans f z i := by
  refine ⟨fun hz => by rw [h, if_pos hz], fun hz => ?_⟩
  have hnone : decode (wordOf f) = none := by rw [h, if_neg hz]
  exact ⟨hnone, fun s => ⟨_, completeWord_of_illegal hnone s, failed_recordError s _ _⟩⟩

/-- A command whose byte is v writes v to its register, leaves the rest, and succeeds. -/
theorem WritesOne.exec_of_ok {i : Instr} {rd : Reg} {f : State → Except Stop Byte} (hi : WritesOne i rd f) {s : State}
    {v : Byte} (hv : f s = .ok v) :
    ∃ t, exec i s = .next t ∧ WroteE s t rd v ∧ SameLmem s t ∧ Succeeded s t := by
  refine ⟨(s.writeE rd v).recordDone, ?_, fun r => readE_writeE s rd r v, lmemAt_writeE s rd v,
    succeeded_recordDone ⟨rfl, rfl, rfl, rfl, rfl, rfl, rfl, rfl, rfl, rfl, rfl⟩⟩
  rw [hi.exec_eq, hv, bind_ok, pure_ok, complete_ok]

/-- A command that raises an error writes nothing and records it. -/
theorem WritesOne.exec_of_raised {i : Instr} {rd : Reg} {f : State → Except Stop Byte} (hi : WritesOne i rd f)
    {s : State} {c : ErrorCode} {w : Word} (hr : f s = .error (.raised c w)) :
    ∃ t, exec i s = .next t ∧ Failed s t (errorNumber c) w := by
  refine ⟨s.recordError c w, ?_, failed_recordError s c w⟩
  rw [hi.exec_eq, hr, bind_error, complete_raised]

/-- The test of FINV and FDIV lets a nonzero value pass. -/
theorem raiseIf_of_ne_zero {v : Byte} (h : v ≠ 0x00) (c : ErrorCode) (w : Word) : raiseIf (v == 0x00) c w = .ok () :=
  raiseIf_eq_ok.2 (beq_false_of_ne h)

/-- The test of FINV and FDIV raises for 0x00. -/
theorem raiseIf_of_eq_zero {v : Byte} (h : v = 0x00) (c : ErrorCode) (w : Word) :
    raiseIf (v == 0x00) c w = .error (.raised c w) :=
  raiseIf_eq_error.2 ⟨beq_iff_eq.2 h, rfl⟩

/-- Settles O9. -/
theorem faddRule : Obligations.FaddRule := by
  refine ⟨fun rd rs1 rs2 imm12 => wordMeans_of_decode (by simp [decode_wordOf]), fun rd rs1 rs2 s => ?_⟩
  exact (writesOne_binary (g := gadd) (fun _ => rfl) rfl fun _ => rfl).exec_of_ok rfl

/-- Settles O10: `gsub` and `gadd` are the same XOR. -/
theorem fsubRule : Obligations.FsubRule := by
  refine ⟨fun rd rs1 rs2 imm12 => wordMeans_of_decode (by simp [decode_wordOf]), fun rd rs1 rs2 s => ⟨rfl, ?_⟩⟩
  exact (writesOne_binary (g := gsub) (fun _ => rfl) rfl fun _ => rfl).exec_of_ok rfl

/-- Settles O11. -/
theorem fmulRule : Obligations.FmulRule := by
  refine ⟨fun rd rs1 rs2 imm12 => wordMeans_of_decode (by simp [decode_wordOf]), fun rd rs1 rs2 s => ?_, gmul_comm,
    fun a => ⟨gmul_zero a, gmul_one a⟩⟩
  exact (writesOne_binary (g := gmul) (fun _ => rfl) rfl fun _ => rfl).exec_of_ok rfl

/-- Settles O12. -/
theorem finvRule : Obligations.FinvRule := by
  refine ⟨fun rd rs1 rs2 imm12 => wordMeans_of_decode (by simp [decode_wordOf]), fun rd rs1 s h => ?_,
    fun rd rs1 s h => ?_, ginv_one, fun a ha => ⟨ginv_ne_zero ha, ginv_ginv ha⟩⟩
  · exact (writesOne_finv rd rs1).exec_of_ok (by rw [raiseIf_of_ne_zero h, bind_ok, pure_ok])
  · exact (writesOne_finv rd rs1).exec_of_raised (by rw [raiseIf_of_eq_zero h, bind_error])

/-- Settles O13. -/
theorem fdivRule : Obligations.FdivRule := by
  refine ⟨fun rd rs1 rs2 imm12 => wordMeans_of_decode (by simp [decode_wordOf]), fun rd rs1 rs2 s h => ?_,
    fun rd rs1 rs2 s h => ?_, fun a => ⟨gdiv_one a, fun ha => ⟨gdiv_self ha, zero_gdiv a⟩⟩⟩
  · exact (writesOne_fdiv rd rs1 rs2).exec_of_ok (by rw [raiseIf_of_ne_zero h, bind_ok, pure_ok, gdiv])
  · exact (writesOne_fdiv rd rs1 rs2).exec_of_raised (by rw [raiseIf_of_eq_zero h, bind_error])

end Sys2Proof.Machine

end

/-! ### PEVAL (41_polynomial R160 to R162)

The Horner loop and the direct sum of coefficient times power agree (`foldr_horner_eq`), and the corner cases are read off
the direct sum (`polyValue`), where a coefficient that is 0x00 is a term that is 0x00. -/

section

namespace Sys2Proof.Machine

/-- The direct sum of R161 over n coefficients. -/
def polyValue (coeffs : Nat → Byte) (x : Byte) (n : Nat) : Byte :=
  fieldSum n fun i => gmul (coeffs i) (gpow x i)

/-- Horner's rule from any accumulator, which takes part with its product by x^n. -/
theorem foldr_horner_eq (coeffs : Nat → Byte) (x : Byte) (n : Nat) (acc : Byte) :
    (List.range n).foldr (fun i acc => gmul acc x ^^^ coeffs i) acc
      = gmul acc (gpow x n) ^^^ polyValue coeffs x n := by
  induction n generalizing acc with
  | zero => exact (BitVec.xor_zero.trans (gmul_one acc)).symm
  | succ n ih =>
    have hpow : gmul acc (gpow x (n + 1)) = gmul (gmul acc x) (gpow x n) := by
      rw [gpow, gmul_comm (gpow x n), gmul_assoc]
    have hsum : polyValue coeffs x (n + 1) = polyValue coeffs x n ^^^ gmul (coeffs n) (gpow x n) := rfl
    rw [List.range_succ, List.foldr_append, List.foldr_cons, List.foldr_nil, ih, gmul_xor_left, hpow, hsum]
    ac_rfl

/-- Terms that are 0x00 at the end of a field sum do not change it. -/
theorem fieldSum_eq_of_zero_tail {m n : Nat} {f : Nat → Byte} (hmn : m ≤ n) (h : ∀ i < n, m ≤ i → f i = 0x00) :
    fieldSum n f = fieldSum m f := by
  induction n, hmn using Nat.le_induction with
  | base => rfl
  | succ n hmn ih =>
    rw [fieldSum, h n (Nat.lt_succ_self n) hmn, ih fun i hi => h i (by omega)]
    exact BitVec.xor_zero

/-- Trailing zero coefficients do not change the value (41_polynomial R162). -/
theorem polyValue_eq_of_zero_tail {m n : Nat} {coeffs : Nat → Byte} (x : Byte) (hmn : m ≤ n)
    (h : ∀ i < n, m ≤ i → coeffs i = 0x00) : polyValue coeffs x n = polyValue coeffs x m :=
  fieldSum_eq_of_zero_tail hmn fun i hi hm => by rw [h i hi hm, zero_gmul]

theorem polyValue_one (coeffs : Nat → Byte) (x : Byte) : polyValue coeffs x 1 = coeffs 0 :=
  BitVec.zero_xor.trans (gmul_one _)

/-- At the point 0x00 every power but the first is 0x00. -/
theorem polyValue_at_zero (coeffs : Nat → Byte) {n : Nat} (hn : 1 ≤ n) : polyValue coeffs 0x00 n = coeffs 0 := by
  have htail : ∀ i < n, 1 ≤ i → gmul (coeffs i) (gpow 0x00 i) = 0x00 := by
    intro i _ hi
    obtain ⟨k, rfl⟩ := Nat.exists_eq_add_of_le' hi
    rw [gpow, gmul_zero, gmul_zero]
  exact (fieldSum_eq_of_zero_tail hn htail).trans (polyValue_one coeffs 0x00)

theorem one_gpow (n : Nat) : gpow 0x01 n = 0x01 := by
  induction n with
  | zero => rfl
  | succ n ih => rw [gpow, ih, gmul_one]

theorem polyValue_at_one (coeffs : Nat → Byte) (n : Nat) : polyValue coeffs 0x01 n = fieldSum n coeffs :=
  fieldSum_congr fun i _ => by rw [one_gpow, gmul_one]

/-- PEVAL whose coefficients lie in LMEM writes the Horner value and succeeds (41_polynomial R160). -/
theorem exec_peval_of_rangeOk (rd rs1 rs2 : Reg) {addr : Addr} {s : State}
    (h : RangeOk addr.toNat (s.readE rs2).toNat) :
    ∃ t, exec (.peval rd rs1 rs2 addr) s = .next t
      ∧ WroteE s t rd ((List.range (s.readE rs2).toNat).foldr
          (fun i acc => gmul acc (s.readE rs1) ^^^ s.lmemAt (addr.toNat + i)) 0x00)
      ∧ SameLmem s t ∧ Succeeded s t :=
  (writesOne_peval rd rs1 rs2 addr).exec_of_ok (by rw [requireRange_of_ok h, bind_ok, horner_of_ok h])

/-- PEVAL whose coefficients reach past LMEM records ADDRESS_RANGE (41_polynomial R160). -/
theorem exec_peval_of_not_rangeOk (rd rs1 rs2 : Reg) {addr : Addr} {s : State}
    (h : ¬ RangeOk addr.toNat (s.readE rs2).toNat) :
    ∃ t, exec (.peval rd rs1 rs2 addr) s = .next t
      ∧ Failed s t 0x06 (BitVec.ofNat 32 ((s.readE rs2).toNat * 65536 + addr.toNat)) := by
  have hlen := (s.readE rs2).isLt
  have hstart := addr.isLt
  rw [← rangeInfo_eq (by omega) (by omega)]
  exact (writesOne_peval rd rs1 rs2 addr).exec_of_raised (by rw [requireRange_of_not h, bind_error])

/-- Settles O14. -/
theorem pevalHornerRule : Obligations.PevalHornerRule :=
  ⟨fun rd rs1 rs2 imm12 => wordMeans_of_decode (by simp [decode_wordOf]),
    fun rd rs1 rs2 _ _ => exec_peval_of_rangeOk rd rs1 rs2,
    fun rd rs1 rs2 _ _ => exec_peval_of_not_rangeOk rd rs1 rs2⟩

/-- The byte PEVAL leaves in E[RD], as the direct sum (41_polynomial R161). -/
theorem exec_peval_polyValue (rd rs1 rs2 : Reg) {addr : Addr} {s : State}
    (h : RangeOk addr.toNat (s.readE rs2).toNat) :
    ∃ t, exec (.peval rd rs1 rs2 addr) s = .next t
      ∧ t.readE rd = polyValue (fun i => s.lmemAt (addr.toNat + i)) (s.readE rs1) (s.readE rs2).toNat
      ∧ Succeeded s t := by
  obtain ⟨t, ht, hwrote, -, hdone⟩ := exec_peval_of_rangeOk rd rs1 rs2 h
  refine ⟨t, ht, ?_, hdone⟩
  rw [hwrote rd, if_pos rfl, foldr_horner_eq fun i => s.lmemAt (addr.toNat + i), zero_gmul]
  exact BitVec.zero_xor

/-- The byte PEVAL leaves in E[RD], from a value of the direct sum. -/
theorem exec_peval_readE (rd : Reg) {rs1 rs2 : Reg} {addr : Addr} {s : State} {v : Byte}
    (h : RangeOk addr.toNat (s.readE rs2).toNat)
    (hv : polyValue (fun i => s.lmemAt (addr.toNat + i)) (s.readE rs1) (s.readE rs2).toNat = v) :
    ∃ t, exec (.peval rd rs1 rs2 addr) s = .next t ∧ t.readE rd = v := by
  obtain ⟨t, ht, hvalue, -⟩ := exec_peval_polyValue rd rs1 rs2 h
  exact ⟨t, ht, hvalue.trans hv⟩

/-- Settles O15. -/
theorem pevalDirectPowers : Obligations.PevalDirectPowers :=
  fun rd _ _ _ _ h => exec_peval_readE rd h rfl

/-- Two counts that differ by trailing zero coefficients leave the same byte in E[RD]. -/
theorem exec_peval_zero_tail (rd : Reg) {rs1 rs2 : Reg} {addr : Addr} (s : State) {n n' : Byte} (hne : rs1 ≠ rs2)
    (hle : n.toNat ≤ n'.toNat) (hr : RangeOk addr.toNat n'.toNat)
    (hzero : ∀ i < n'.toNat, n.toNat ≤ i → s.lmemAt (addr.toNat + i) = 0x00) :
    ∃ t t', exec (.peval rd rs1 rs2 addr) (s.writeE rs2 n) = .next t
      ∧ exec (.peval rd rs1 rs2 addr) (s.writeE rs2 n') = .next t' ∧ t.readE rd = t'.readE rd := by
  have hcount : ∀ m, (s.writeE rs2 m).readE rs2 = m := fun m => by rw [readE_writeE, if_pos rfl]
  have hpoint : ∀ m, (s.writeE rs2 m).readE rs1 = s.readE rs1 := fun m => by rw [readE_writeE, if_neg hne]
  have hrange : ∀ m, m.toNat ≤ n'.toNat → RangeOk addr.toNat ((s.writeE rs2 m).readE rs2).toNat := fun m hm => by
    rw [hcount]
    omega
  obtain ⟨t, ht, hv, -⟩ := exec_peval_polyValue rd rs1 rs2 (hrange n hle)
  obtain ⟨t', ht', hv', -⟩ := exec_peval_polyValue rd rs1 rs2 (hrange n' le_rfl)
  refine ⟨t, t', ht, ht', ?_⟩
  rw [hv, hv', hcount, hcount, hpoint, hpoint]
  exact (polyValue_eq_of_zero_tail _ hle hzero).symm

/-- Settles O16, each case by the value of the direct sum. -/
theorem pevalCornerCases : Obligations.PevalCornerCases := by
  refine ⟨fun rd rs1 rs2 addr s hn => ?_, fun rd rs1 rs2 addr s hr hn hx => ?_, fun rd rs1 rs2 addr s hn => ?_,
    fun rd rs1 rs2 addr s hr hx => ?_, fun rd _ _ _ s _ _ => exec_peval_zero_tail rd s, fun rd rs1 rs2 s hn => ?_⟩
  · have hcount : (s.readE rs2).toNat = 0 := by rw [hn]; rfl
    obtain ⟨t, ht, hv, hdone⟩ := exec_peval_polyValue rd rs1 rs2 (.inl hcount : RangeOk addr.toNat _)
    exact ⟨t, ht, by rw [hv, hcount]; rfl, hdone⟩
  · have hcount : 1 ≤ (s.readE rs2).toNat := Nat.pos_of_ne_zero fun h0 => hn (BitVec.eq_of_toNat_eq h0)
    exact exec_peval_readE rd hr (by rw [hx]; exact polyValue_at_zero _ hcount)
  · have hcount : (s.readE rs2).toNat = 1 := by rw [hn]; rfl
    have hr : RangeOk addr.toNat (s.readE rs2).toNat := .inr (by rw [hcount]; exact addr.isLt)
    exact exec_peval_readE rd hr (by rw [hcount]; exact polyValue_one _ _)
  · exact exec_peval_readE rd hr (by rw [hx]; exact polyValue_at_one _ _)
  · have hr : RangeOk (3841#12).toNat (s.readE rs2).toNat := by rw [hn]; decide
    obtain ⟨t, ht, -, hdone⟩ := exec_peval_polyValue rd rs1 rs2 hr
    exact ⟨t, ht, hdone⟩

end Sys2Proof.Machine

end

/-! ### LAGR: the checks and the output bytes (42_lagrange R171 to R178)

On a readable table LAGR is `State.lagrRule`, which speaks of the table as LMEM shows it. Each check of R172 to R175 that
fails ends the rule with its error. Where all pass, the byte positions write the sums of R177. -/

section

namespace Sys2Proof.Machine

theorem tableCount_pos {s : State} {t : Nat} (h : s.TableReadable t) : 0 < s.tableCount t := by
  obtain ⟨-, hcount, -⟩ := h
  exact Nat.pos_of_ne_zero hcount

/-- What LAGR does once the table is readable (42_lagrange R177): the remaining checks, the coefficients, the byte
positions. -/
def State.lagrRule (s : State) (t : Nat) : Except Stop State := do
  checkDistinct (s.tableIds t)
  checkLengths (s.tableLens t) ((s.tableLens t).headD 0)
  checkPayloads (s.tableLen t 0) (s.tableShares t)
  requireRange (s.tableOut t) (s.tableLen t 0)
  let bs ← basisList (s.tableIds t) 0 (s.tableIds t)
  State.lanes (((List.range (s.tableCount t)).map (s.tableAdr t)).zip bs) (s.tableOut t) 0 (s.tableLen t 0) s

theorem exec_lagr_of_table {addr : Addr} {s : State} (h : s.TableReadable addr.toNat) :
    exec (.lagr addr) s = complete s (s.lagrRule addr.toNat) := by
  refine (execLagr_of_table h).trans ?_
  obtain ⟨-, hcount, -⟩ := h
  rw [State.lagrFrom, tableShares_ids, tableShares_lens, tableShares_adrs, tableLens_head hcount, tableOut_eq]
  rfl

/-- LAGR that records an error fails with that error's number. -/
theorem exec_lagr_failed {addr : Addr} {s : State} {c : ErrorCode} {w : Word}
    (h : execLagr addr s = .next (s.recordError c w)) :
    ∃ u, exec (.lagr addr) s = .next u ∧ Failed s u (errorNumber c) w :=
  ⟨_, h, failed_recordError s c w⟩

/-- An error that the rule raises on a readable table is recorded. -/
theorem exec_lagr_of_raised {addr : Addr} {s : State} {c : ErrorCode} {w : Word} (h : s.TableReadable addr.toNat)
    (hr : s.lagrRule addr.toNat = .error (.raised c w)) :
    ∃ u, exec (.lagr addr) s = .next u ∧ Failed s u (errorNumber c) w :=
  exec_lagr_failed ((exec_lagr_of_table h).trans (by rw [hr, complete_raised]))

theorem not_rangeOk_of_lt {a n : Nat} (hn : n ≠ 0) (h : 4096 < a + n) : ¬ RangeOk a n := by
  rintro (h' | h') <;> omega

theorem exec_lagr_header {addr : Addr} {s : State} (h : 4096 < addr.toNat + 4) :
    ∃ u, exec (.lagr addr) s = .next u ∧ Failed s u 0x06 (BitVec.ofNat 32 (4 * 65536 + addr.toNat)) := by
  have haddr := addr.isLt
  rw [← rangeInfo_eq (by omega) (by omega)]
  exact exec_lagr_failed (execLagr_of_header_not (not_rangeOk_of_lt (by decide) h))

/-- Settles O18. -/
theorem lagrEmptyShareSet : Obligations.LagrEmptyShareSet :=
  fun _ _ hheader hcount => exec_lagr_failed (execLagr_of_empty hheader hcount)

theorem exec_lagr_table {addr : Addr} {s : State} (hheader : addr.toNat + 4 ≤ 4096)
    (hcount : s.tableCount addr.toNat ≠ 0) (h : 4096 < addr.toNat + (4 + 6 * s.tableCount addr.toNat)) :
    ∃ u, exec (.lagr addr) s = .next u
      ∧ Failed s u 0x06 (BitVec.ofNat 32 ((4 + 6 * s.tableCount addr.toNat) * 65536 + addr.toNat)) := by
  have haddr := addr.isLt
  have hlt := tableCount_lt s addr.toNat
  rw [← rangeInfo_eq (by omega) (by omega)]
  exact exec_lagr_failed (execLagr_of_table_not hheader hcount (not_rangeOk_of_lt (by omega) h))

/-- Settles O19: the search for duplicates is the first check on a readable table. -/
theorem lagrDuplicateShareId : Obligations.LagrDuplicateShareId := by
  intro addr s j m htable hm hj heq hfirst
  have hlt := tableCount_lt s addr.toNat
  rw [← pairInfo_eq (by omega) (by omega)]
  exact exec_lagr_of_raised htable (by rw [State.lagrRule, checkDistinct_of_first hm hj heq hfirst, bind_error])

/-- Settles O20: with distinct IDs the lengths are compared next. -/
theorem lagrMismatchedShareLength : Obligations.LagrMismatchedShareLength := by
  intro addr s j htable hids hj hne hfirst
  exact exec_lagr_of_raised htable
    (by rw [State.lagrRule, checkDistinct_of_distinct hids, bind_ok, checkLengths_of_first hj hne hfirst, bind_error])

/-- Each share's payload address and coefficient, over which a byte position sums (42_lagrange R177). -/
def State.lagrTerms (s : State) (t : Nat) : List (Nat × Byte) :=
  ((List.range (s.tableCount t)).map (s.tableAdr t)).zip
    ((List.range (s.tableCount t)).map (basisAt (s.tableId t) (s.tableCount t)))

theorem laneValue_lagrTerms (s : State) (t i : Nat) (f : Nat → Byte) : laneValue f i (s.lagrTerms t)
    = fieldSum (s.tableCount t) fun j => gmul (f (s.tableAdr t j + i)) (basisAt (s.tableId t) (s.tableCount t) j) :=
  laneValue_table f _ _

theorem rangeOk_of_mem_lagrTerms {s : State} {t n : Nat} (h : ∀ j < s.tableCount t, RangeOk (s.tableAdr t j) n) :
    ∀ p ∈ s.lagrTerms t, RangeOk p.1 n := by
  intro p hp
  obtain ⟨j, hj, hadr⟩ := List.mem_map.1 (List.of_mem_zip hp).1
  rw [← hadr]
  exact h j (List.mem_range.1 hj)

/-- With distinct IDs and equal lengths the ranges of the payloads and the output are checked next. -/
theorem lagrRule_of_lengthsEqual {s : State} {t : Nat} (htable : s.TableReadable t) (hids : s.IdsDistinct t)
    (hlens : s.LengthsEqual t) :
    s.lagrRule t = (do
      checkPayloads (s.tableLen t 0) (s.tableShares t)
      requireRange (s.tableOut t) (s.tableLen t 0)
      State.lanes (s.lagrTerms t) (s.tableOut t) 0 (s.tableLen t 0) s) := by
  obtain ⟨-, hcount, -⟩ := htable
  rw [State.lagrRule, checkDistinct_of_distinct hids, bind_ok, checkLengths_of_equal hcount hlens, bind_ok,
    basisList_table fun j hj => basisDen_ne_zero hids hj]
  rfl

theorem exec_lagr_payload {addr : Addr} {s : State} {j : Nat} (htable : s.TableReadable addr.toNat)
    (hids : s.IdsDistinct addr.toNat) (hlens : s.LengthsEqual addr.toNat) (hj : j < s.tableCount addr.toNat)
    (hfirst : ∀ k < j, RangeOk (s.tableAdr addr.toNat k) (s.tableLen addr.toNat 0))
    (h : ¬ RangeOk (s.tableAdr addr.toNat j) (s.tableLen addr.toNat 0)) :
    ∃ u, exec (.lagr addr) s = .next u
      ∧ Failed s u 0x06 (BitVec.ofNat 32 (s.tableLen addr.toNat 0 * 65536 + s.tableAdr addr.toNat j)) := by
  rw [← rangeInfo_eq (len := s.tableLen addr.toNat 0) (start := s.tableAdr addr.toNat j) (le16_lt s _) (le16_lt s _)]
  exact exec_lagr_of_raised htable
    (by rw [lagrRule_of_lengthsEqual htable hids hlens, checkPayloads_first hj hfirst h, bind_error])

theorem exec_lagr_output {addr : Addr} {s : State} (htable : s.TableReadable addr.toNat)
    (hids : s.IdsDistinct addr.toNat) (hlens : s.LengthsEqual addr.toNat)
    (hpayloads : ∀ j < s.tableCount addr.toNat, RangeOk (s.tableAdr addr.toNat j) (s.tableLen addr.toNat 0))
    (h : ¬ RangeOk (s.tableOut addr.toNat) (s.tableLen addr.toNat 0)) :
    ∃ u, exec (.lagr addr) s = .next u
      ∧ Failed s u 0x06 (BitVec.ofNat 32 (s.tableLen addr.toNat 0 * 65536 + s.tableOut addr.toNat)) := by
  rw [← rangeInfo_eq (len := s.tableLen addr.toNat 0) (start := s.tableOut addr.toNat) (le16_lt s _) (le16_lt s _)]
  exact exec_lagr_of_raised htable
    (by rw [lagrRule_of_lengthsEqual htable hids hlens, checkPayloads_table hpayloads, bind_ok, requireRange_of_not h,
      bind_error])

/-- What all byte positions do where each payload and the output lies in LMEM or is empty (42_lagrange R177, R178). -/
theorem lanes_of_rangeOk {terms : List (Nat × Byte)} {out n : Nat} {s : State} (hr : ∀ p ∈ terms, RangeOk p.1 n)
    (hw : RangeOk out n) :
    ∃ u, State.lanes terms out 0 n s = .ok u ∧ u = { s with lmem := u.lmem }
      ∧ (∀ a, ¬ (out ≤ a ∧ a < out + n) → u.lmemAt a = s.lmemAt a)
      ∧ ∀ i < n, u.lmemAt (out + i)
        = laneValue (fun a => if out ≤ a ∧ a < out + i then u.lmemAt a else s.lmemAt a) i terms := by
  rcases Nat.eq_zero_or_pos n with rfl | hn
  · exact ⟨s, rfl, rfl, fun _ _ => rfl, fun i hi => absurd hi (Nat.not_lt_zero i)⟩
  · obtain ⟨u, hu, hlmem, hframe, hvalue⟩ := lanes_of_le (terms := terms) (out := out) (i := 0) (n := n) (s := s)
      (fun p hp => by rcases hr p hp with h | h <;> omega) (by rcases hw with h | h <;> omega)
    rw [Nat.zero_add] at hframe hvalue
    exact ⟨u, hu, hlmem, hframe, fun i hi => hvalue i (Nat.zero_le i) hi⟩

/-- A rule that changes LMEM alone leaves E and succeeds. -/
theorem succeeded_of_lmem {s u : State} (h : u = { s with lmem := u.lmem }) :
    SameE s u.recordDone ∧ Succeeded s u.recordDone := by
  rw [h]
  exact ⟨fun _ => rfl, succeeded_recordDone ⟨rfl, rfl, rfl, rfl, rfl, rfl, rfl, rfl, rfl, rfl, rfl⟩⟩

/-- Settles O21. -/
theorem lagrWritesInterpolatedBytes : Obligations.LagrWritesInterpolatedBytes := by
  refine ⟨fun rd rs1 rs2 imm12 => wordMeans_of_decode (by simp [decode_wordOf]), fun addr s hready => ?_⟩
  obtain ⟨htable, hids, hlens, hpayloads, hout⟩ := hready
  obtain ⟨u, hu, hlmem, hframe, hvalue⟩ := lanes_of_rangeOk (s := s) (rangeOk_of_mem_lagrTerms hpayloads) hout
  obtain ⟨hE, hdone⟩ := succeeded_of_lmem hlmem
  refine ⟨u.recordDone, ?_, hE, hdone, hframe, fun i hi => ?_⟩
  · rw [exec_lagr_of_table htable, lagrRule_of_lengthsEqual htable hids hlens, checkPayloads_table hpayloads, bind_ok,
      requireRange_of_ok hout, bind_ok, hu, complete_ok]
  · exact (hvalue i hi).trans (laneValue_lagrTerms s _ i _)

/-- Where every length is 0 every range passes, wherever the payloads and the output start (42_lagrange R172). -/
theorem lagrReady_of_len_zero {s : State} {t : Nat} (htable : s.TableReadable t) (hids : s.IdsDistinct t)
    (hlens : s.LengthsEqual t) (hzero : s.tableLen t 0 = 0) : s.LagrReady t :=
  ⟨htable, hids, hlens, fun _ _ => .inl hzero, .inl hzero⟩

/-- Settles O17, a lemma for each range. -/
theorem lagrAddressRangeChecks : Obligations.LagrAddressRangeChecks := by
  refine ⟨fun _ _ => exec_lagr_header, fun _ _ => exec_lagr_table, fun _ _ _ => exec_lagr_payload,
    fun _ _ => exec_lagr_output, fun addr s htable hids hlens hzero => ?_⟩
  obtain ⟨u, hu, -, hdone, -⟩ := lagrWritesInterpolatedBytes.2 addr s (lagrReady_of_len_zero htable hids hlens hzero)
  exact ⟨u, hu, hdone⟩

/-- The output bytes where no payload byte is read after it was overwritten (42_lagrange R178): the sums over the bytes
LMEM held before. -/
theorem exec_lagr_noLateRead {addr : Addr} {s : State} (hready : s.LagrReady addr.toNat)
    (hlate : s.NoLateRead addr.toNat) :
    ∃ u, exec (.lagr addr) s = .next u ∧ Succeeded s u ∧ ∀ i < s.tableLen addr.toNat 0,
      u.lmemAt (s.tableOut addr.toNat + i) = fieldSum (s.tableCount addr.toNat) fun j =>
        gmul (s.lmemAt (s.tableAdr addr.toNat j + i)) (basisAt (s.tableId addr.toNat) (s.tableCount addr.toNat) j) := by
  obtain ⟨u, hu, -, hdone, -, hvalue⟩ := lagrWritesInterpolatedBytes.2 addr s hready
  refine ⟨u, hu, hdone, fun i hi => ?_⟩
  rw [hvalue i hi]
  refine fieldSum_congr fun j hj => ?_
  rw [if_neg]
  rcases hlate j hj with h | h <;> omega

/-- The output bytes are v where the sums are. -/
theorem exec_lagr_of_sum {addr : Addr} {s : State} {v : Nat → Byte} (hready : s.LagrReady addr.toNat)
    (hlate : s.NoLateRead addr.toNat)
    (hv : ∀ i < s.tableLen addr.toNat 0, (fieldSum (s.tableCount addr.toNat) fun j =>
      gmul (s.lmemAt (s.tableAdr addr.toNat j + i)) (basisAt (s.tableId addr.toNat) (s.tableCount addr.toNat) j))
        = v i) :
    ∃ u, exec (.lagr addr) s = .next u ∧ Succeeded s u
      ∧ ∀ i < s.tableLen addr.toNat 0, u.lmemAt (s.tableOut addr.toNat + i) = v i := by
  obtain ⟨u, hu, hdone, hvalue⟩ := exec_lagr_noLateRead hready hlate
  exact ⟨u, hu, hdone, fun i hi => (hvalue i hi).trans (hv i hi)⟩

end Sys2Proof.Machine

end

/-! ### LAGR reconstructs the constant term (42_lagrange R179, R180)

A map of the bytes into a field that takes XOR, `gmul`, 0x00 and 0x01 to the field's own (`FieldMap`) takes the sums and
products of LAGR to Mathlib's, and B[j] to the value at 0 of Mathlib's Lagrange basis polynomial. A polynomial of degree
below S is its own interpolation, so its value at 0 is the sum of R177. The bytes under `gmul` are such a field. -/

section

namespace Sys2Proof.Machine

section

variable {F : Type} [Field F]

/-- A polynomial of degree below n is determined by n values, and its value at 0 is their interpolation. -/
theorem sum_eval_basis_zero {x : Nat → F} {n : Nat} (hx : Set.InjOn x (Finset.range n)) {p : Polynomial F}
    (hp : p.degree < n) :
    ∑ j ∈ Finset.range n, p.eval (x j) * (Lagrange.basis (Finset.range n) x j).eval 0 = p.eval 0 := by
  have hinterp := Lagrange.eq_interpolate hx (f := p) (by rwa [Finset.card_range])
  conv_rhs => rw [hinterp, Lagrange.interpolate_apply, Polynomial.eval_finsetSum]
  exact Finset.sum_congr rfl fun j _ => by rw [Polynomial.eval_mul, Polynomial.eval_C]

/-- The polynomial with the n coefficients c 0, ..., c (n - 1). -/
noncomputable def coeffPoly (c : Nat → F) (n : Nat) : Polynomial F :=
  ∑ k ∈ Finset.range n, Polynomial.C (c k) * Polynomial.X ^ k

theorem eval_coeffPoly (c : Nat → F) (n : Nat) (a : F) :
    (coeffPoly c n).eval a = ∑ k ∈ Finset.range n, c k * a ^ k := by
  simp [coeffPoly, Polynomial.eval_finsetSum]

theorem degree_coeffPoly_lt (c : Nat → F) (n : Nat) : (coeffPoly c n).degree < n := by
  rw [← Polynomial.mem_degreeLT]
  refine Submodule.sum_mem _ fun k hk => Polynomial.mem_degreeLT.2 ?_
  exact (Polynomial.degree_C_mul_X_pow_le k (c k)).trans_lt (by exact_mod_cast Finset.mem_range.1 hk)

theorem eval_zero_coeffPoly (c : Nat → F) {n : Nat} (hn : 0 < n) : (coeffPoly c n).eval 0 = c 0 := by
  rw [eval_coeffPoly, Finset.sum_eq_single_of_mem 0 (Finset.mem_range.2 hn) fun k _ hk => by rw [zero_pow hk, mul_zero],
    pow_zero, mul_one]

end

/-- φ embeds the bytes, under the arithmetic of 40_field, into the field F. -/
structure FieldMap {F : Type} [Field F] (φ : Byte → F) : Prop where
  zero : φ 0x00 = 0
  one : φ 0x01 = 1
  add : ∀ a b, φ (a ^^^ b) = φ a + φ b
  mul : ∀ a b, φ (gmul a b) = φ a * φ b
  injective : Function.Injective φ

section

variable {F : Type} [Field F] {φ : Byte → F} (hφ : FieldMap φ)
include hφ

theorem FieldMap.map_fieldSum (n : Nat) (f : Nat → Byte) : φ (fieldSum n f) = ∑ k ∈ Finset.range n, φ (f k) := by
  induction n with
  | zero => exact hφ.zero
  | succ n ih => rw [fieldSum, hφ.add, ih, Finset.sum_range_succ]

theorem FieldMap.map_fieldProd (n : Nat) (f : Nat → Byte) : φ (fieldProd n f) = ∏ k ∈ Finset.range n, φ (f k) := by
  induction n with
  | zero => exact hφ.one
  | succ n ih => rw [fieldProd, hφ.mul, ih, Finset.prod_range_succ]

theorem FieldMap.map_gpow (a : Byte) (n : Nat) : φ (gpow a n) = φ a ^ n := by
  induction n with
  | zero => rw [gpow, hφ.one, pow_zero]
  | succ n ih => rw [gpow, hφ.mul, ih, pow_succ]

/-- Subtraction is XOR too (40_field R130). -/
theorem FieldMap.map_sub (a b : Byte) : φ (a ^^^ b) = φ a - φ b := by
  rw [eq_sub_iff_add_eq, ← hφ.add, BitVec.xor_assoc, BitVec.xor_self, BitVec.xor_zero]

/-- "0 - x_m equals x_m" (42_lagrange R170). -/
theorem FieldMap.map_zero_sub (a : Byte) : 0 - φ a = φ a := by
  rw [← hφ.zero, ← hφ.map_sub]
  exact congrArg φ BitVec.zero_xor

theorem FieldMap.map_ginv {a : Byte} (ha : a ≠ 0x00) : φ (ginv a) = (φ a)⁻¹ :=
  eq_inv_of_mul_eq_one_right (by rw [← hφ.mul, gmul_ginv ha, hφ.one])

/-- The product over all other shares is the product over the indices without j. -/
theorem FieldMap.map_fieldProd_erase (n j : Nat) (f : Nat → Byte) :
    φ (fieldProd n fun m => if m = j then 0x01 else f m) = ∏ m ∈ (Finset.range n).erase j, φ (f m) := by
  rw [hφ.map_fieldProd, ← Finset.prod_erase (a := j) _ (by rw [if_pos rfl, hφ.one])]
  exact Finset.prod_congr rfl fun m hm => by rw [if_neg (Finset.ne_of_mem_erase hm)]

/-- B[j] is the Lagrange basis polynomial of share j at 0 (42_lagrange R176). -/
theorem FieldMap.map_basisAt {id : Nat → Byte} {n j : Nat} (h : basisDen id n j ≠ 0x00) :
    φ (basisAt id n j) = (Lagrange.basis (Finset.range n) (fun m => φ (id m)) j).eval 0 := by
  have hnum : φ (basisNum id n j) = ∏ m ∈ (Finset.range n).erase j, (0 - φ (id m)) := by
    rw [basisNum, hφ.map_fieldProd_erase]
    exact Finset.prod_congr rfl fun m _ => (hφ.map_zero_sub (id m)).symm
  have hden : φ (basisDen id n j) = ∏ m ∈ (Finset.range n).erase j, (φ (id j) - φ (id m)) := by
    rw [basisDen, hφ.map_fieldProd_erase]
    exact Finset.prod_congr rfl fun m _ => hφ.map_sub (id j) (id m)
  rw [basisAt, hφ.mul, hφ.map_ginv h, hnum, hden, mul_comm, ← Finset.prod_inv_distrib, ← Finset.prod_mul_distrib,
    Lagrange.basis, Polynomial.eval_prod]
  refine Finset.prod_congr rfl fun m _ => ?_
  rw [Lagrange.basisDivisor, Polynomial.eval_mul, Polynomial.eval_C, Polynomial.eval_sub, Polynomial.eval_X,
    Polynomial.eval_C]

end

/-- Interpolation at 0 over the bytes (42_lagrange R180): where the IDs are distinct, the values at them of a polynomial
with n coefficients, each times its B[j], sum to the constant term. The field is an implicit argument, found from `hφ`:
`byteField` is no registered one. -/
theorem FieldMap.fieldSum_interpolation {F : Type} {_ : Field F} {φ : Byte → F} (hφ : FieldMap φ)
    {id coeffs : Nat → Byte} {n : Nat} (hn : 0 < n) (hid : ∀ m < n, ∀ j < m, id j ≠ id m)
    (hden : ∀ j < n, basisDen id n j ≠ 0x00) :
    (fieldSum n fun j => gmul (polyValue coeffs (id j) n) (basisAt id n j)) = coeffs 0 := by
  have hinj : Set.InjOn (fun m => φ (id m)) (Finset.range n) := by
    intro j hj m hm heq
    have hbyte : id j = id m := hφ.injective heq
    rw [Finset.coe_range, Set.mem_Iio] at hj hm
    rcases Nat.lt_trichotomy j m with h | h | h
    · exact absurd hbyte (hid m hm j h)
    · exact h
    · exact absurd hbyte.symm (hid j hj m h)
  apply hφ.injective
  rw [hφ.map_fieldSum, ← eval_zero_coeffPoly (fun k => φ (coeffs k)) hn,
    ← sum_eval_basis_zero hinj (degree_coeffPoly_lt _ n)]
  refine Finset.sum_congr rfl fun j hj => ?_
  rw [hφ.mul, hφ.map_basisAt (hden j (Finset.mem_range.1 hj)), polyValue, hφ.map_fieldSum, eval_coeffPoly]
  congr 1
  exact Finset.sum_congr rfl fun k _ => by rw [hφ.mul, hφ.map_gpow]

theorem ginv_zero : ginv 0x00 = 0x00 := by
  decide

/-- The bytes under the operations of 40_field, a field by the laws of R142. -/
@[reducible] def byteField : Field Byte :=
  @Field.ofMinimalAxioms Byte ⟨gadd⟩ ⟨gmul⟩ ⟨fun a => a⟩ ⟨ginv⟩ ⟨0x00⟩ ⟨0x01⟩ BitVec.xor_assoc (fun _ => BitVec.zero_xor)
    (fun _ => BitVec.xor_self) gmul_assoc gmul_comm one_gmul (fun _ => gmul_ginv) ginv_zero gmul_xor_right
    ⟨0x00, 0x01, by decide⟩

theorem fieldMap_byteField : @FieldMap Byte byteField id :=
  @FieldMap.mk Byte byteField id rfl rfl (fun _ _ => rfl) (fun _ _ => rfl) Function.injective_id

/-- Settles O22: the sum of R177 over the values of a polynomial is their interpolation at 0. -/
theorem lagrReconstructsConstantTerm : Obligations.LagrReconstructsConstantTerm := by
  intro addr s p hready hlate hvalues
  refine exec_lagr_of_sum hready hlate fun i hi => ?_
  obtain ⟨htable, hids, -⟩ := hready
  calc _ = fieldSum (s.tableCount addr.toNat) fun j =>
        gmul (polyValue (p i) (s.tableId addr.toNat j) (s.tableCount addr.toNat))
          (basisAt (s.tableId addr.toNat) (s.tableCount addr.toNat) j) :=
        fieldSum_congr fun j hj => by rw [hvalues i hi j hj, polyValue]
    _ = p i 0 := fieldMap_byteField.fieldSum_interpolation (tableCount_pos htable) hids fun j => basisDen_ne_zero hids

end Sys2Proof.Machine

end

/-! ### The corner cases of LAGR, its errors, and its byte lanes (42_lagrange R179, R181, R182) -/

section

namespace Sys2Proof.Machine

theorem fieldProd_eq_zero {n k : Nat} {f : Nat → Byte} (hk : k < n) (h : f k = 0x00) : fieldProd n f = 0x00 := by
  induction n with
  | zero => exact absurd hk (Nat.not_lt_zero k)
  | succ n ih =>
    rw [fieldProd]
    rcases Nat.lt_succ_iff_lt_or_eq.1 hk with hk | rfl
    · rw [ih hk, zero_gmul]
    · rw [h, gmul_zero]

/-- The coefficient of a share with ID 0x00 is 0x01: its two products have the same factors. -/
theorem basisAt_self_of_id_zero {id : Nat → Byte} {n j : Nat} (hden : basisDen id n j ≠ 0x00) (h : id j = 0x00) :
    basisAt id n j = 0x01 := by
  have hnum : basisNum id n j = basisDen id n j :=
    fieldProd_congr fun m _ => by rw [h]; exact congrArg (ite (m = j) 0x01) BitVec.zero_xor.symm
  rw [basisAt, hnum, gmul_ginv hden]

/-- The coefficient of every other share has the factor 0x00. -/
theorem basisAt_other_of_id_zero {id : Nat → Byte} {n j k : Nat} (hj : j < n) (hne : j ≠ k) (h : id j = 0x00) :
    basisAt id n k = 0x00 := by
  have hnum : basisNum id n k = 0x00 := fieldProd_eq_zero hj (by rw [if_neg hne, h])
  rw [basisAt, hnum, zero_gmul]

theorem fieldSum_eq_single {n j : Nat} {f : Nat → Byte} (hj : j < n) (h : ∀ k < n, k ≠ j → f k = 0x00) :
    fieldSum n f = f j := by
  have htail : fieldSum n f = fieldSum (j + 1) f :=
    fieldSum_eq_of_zero_tail hj fun k hk hle => h k hk (by omega)
  have hhead : fieldSum j f = 0x00 :=
    fieldSum_eq_of_zero_tail (Nat.zero_le j) fun k hk _ => h k (by omega) (by omega)
  rw [htail, fieldSum, hhead]
  exact BitVec.zero_xor

/-- Settles O23: one share is a constant polynomial, shares of length 0 leave an empty range of output bytes, and beside a
share with ID 0x00 every other coefficient is 0x00. -/
theorem lagrSpecialShareSets : Obligations.LagrSpecialShareSets := by
  refine ⟨fun addr s hready hlate hone => ?_, fun addr s htable hids hzero => ?_, fun addr s j hready hlate hj hid => ?_⟩
  · refine lagrReconstructsConstantTerm addr s (fun i _ => s.lmemAt (s.tableAdr addr.toNat 0 + i)) hready hlate ?_
    intro i hi j hj
    obtain rfl : j = 0 := by omega
    rw [hone]
    exact (polyValue_one (fun _ => s.lmemAt (s.tableAdr addr.toNat 0 + i)) _).symm
  · have hlen := hzero 0 (tableCount_pos htable)
    have hlens : s.LengthsEqual addr.toNat := fun j hj => (hzero j hj).trans hlen.symm
    obtain ⟨u, hu, hE, hdone, hframe, -⟩ :=
      lagrWritesInterpolatedBytes.2 addr s (lagrReady_of_len_zero htable hids hlens hlen)
    exact ⟨u, hu, hdone, fun a => hframe a (by omega), hE⟩
  · refine exec_lagr_of_sum hready hlate fun i _ => ?_
    obtain ⟨-, hids, -⟩ := hready
    rw [fieldSum_eq_single hj fun k _ hne => by rw [basisAt_other_of_id_zero hj hne.symm hid, gmul_zero],
      basisAt_self_of_id_zero (basisDen_ne_zero hids hj) hid, gmul_one]

/-- A check over the indices below n that fails has a first index where it does. -/
theorem exists_first {P : Nat → Prop} {n : Nat} (h : ¬ ∀ j < n, P j) : ∃ j < n, ¬ P j ∧ ∀ k < j, P k := by
  classical
  have hex : ∃ j, j < n ∧ ¬ P j := by push Not at h; exact h
  obtain ⟨hlt, hnot⟩ := Nat.find_spec hex
  refine ⟨Nat.find hex, hlt, hnot, fun k hk => ?_⟩
  by_contra hP
  exact Nat.find_min hex hk ⟨hk.trans hlt, hP⟩

theorem checkDistinct_of_not {s : State} {t : Nat} (h : ¬ s.IdsDistinct t) :
    ∃ w, checkDistinct (s.tableIds t) = .error (.raised .duplicateShareId w) := by
  cases hd : firstDuplicate [] (s.tableIds t) with
  | none => exact absurd (distinct_of_checkDistinct (u := ()) (by rw [checkDistinct, hd])) h
  | some p => exact ⟨pairInfo p.1 p.2, by rw [checkDistinct, hd]⟩

/-- The errors LAGR can record (60_exceptions R221). -/
def lagrErrors : List ErrorCode :=
  [.addressRange, .emptyShareSet, .duplicateShareId, .mismatchedShareLength]

/-- EVERYTHING LAGR CAN DO: it succeeds because every check passes, or it records the error of the first that fails. -/
theorem exec_lagr_cases (addr : Addr) (s : State) :
    (s.LagrReady addr.toNat ∧ ∃ u, exec (.lagr addr) s = .next u ∧ Succeeded s u)
      ∨ ∃ c ∈ lagrErrors, ∃ w u, exec (.lagr addr) s = .next u ∧ Failed s u (errorNumber c) w := by
  by_cases hheader : addr.toNat + 4 ≤ 4096
  case neg => exact .inr ⟨.addressRange, by decide, _, exec_lagr_header (Nat.lt_of_not_le hheader)⟩
  by_cases hcount : s.tableCount addr.toNat = 0
  case pos => exact .inr ⟨.emptyShareSet, by decide, _, lagrEmptyShareSet addr s hheader hcount⟩
  by_cases hend : addr.toNat + (4 + 6 * s.tableCount addr.toNat) ≤ 4096
  case neg => exact .inr ⟨.addressRange, by decide, _, exec_lagr_table hheader hcount (Nat.lt_of_not_le hend)⟩
  have htable : s.TableReadable addr.toNat := ⟨hheader, hcount, hend⟩
  by_cases hids : s.IdsDistinct addr.toNat
  case neg =>
    obtain ⟨w, hw⟩ := checkDistinct_of_not hids
    exact .inr ⟨.duplicateShareId, by decide, w,
      exec_lagr_of_raised htable (by rw [State.lagrRule, hw, bind_error])⟩
  by_cases hlens : s.LengthsEqual addr.toNat
  case neg =>
    obtain ⟨j, hj, hne, hfirst⟩ := exists_first hlens
    exact .inr ⟨.mismatchedShareLength, by decide, _,
      lagrMismatchedShareLength addr s j htable hids hj hne hfirst⟩
  by_cases hpayloads : ∀ j < s.tableCount addr.toNat, RangeOk (s.tableAdr addr.toNat j) (s.tableLen addr.toNat 0)
  case neg =>
    obtain ⟨j, hj, hnot, hfirst⟩ := exists_first hpayloads
    exact .inr ⟨.addressRange, by decide, _, exec_lagr_payload htable hids hlens hj hfirst hnot⟩
  by_cases hout : RangeOk (s.tableOut addr.toNat) (s.tableLen addr.toNat 0)
  case neg => exact .inr ⟨.addressRange, by decide, _, exec_lagr_output htable hids hlens hpayloads hout⟩
  have hready : s.LagrReady addr.toNat := ⟨htable, hids, hlens, hpayloads, hout⟩
  obtain ⟨u, hu, -, hdone, -⟩ := lagrWritesInterpolatedBytes.2 addr s hready
  exact .inl ⟨hready, u, hu, hdone⟩

/-- Settles O24: DIVIDE_BY_ZERO is none of `lagrErrors`. -/
theorem lagrNeverInvertsZero : Obligations.LagrNeverInvertsZero := by
  refine ⟨fun s t j => basisDen_ne_zero, fun addr s hfault => ?_, fun addr s t ht => ?_⟩
  · obtain ⟨u, hu⟩ := goes_exec (.lagr addr) s
    rw [hu] at hfault
    cases hfault
  · have hlisted : ∀ c ∈ lagrErrors, errorNumber c ≠ 0x02 := by decide
    rcases exec_lagr_cases addr s with ⟨-, u, hu, -, -, -, hcode, -⟩ | ⟨c, hc, w, u, hu, -, -, hcode, -⟩
    · obtain rfl := Host.Outcome.next.inj (ht.symm.trans hu)
      exact .inl hcode
    · obtain rfl := Host.Outcome.next.inj (ht.symm.trans hu)
      exact .inr (hcode ▸ hlisted c hc)

/-- Both states show the same table at t. Its reserved bytes may differ (42_lagrange R171). -/
structure SameTable (s s' : State) (t : Nat) : Prop where
  count : s'.tableCount t = s.tableCount t
  out : s'.tableOut t = s.tableOut t
  id : ∀ j < s.tableCount t, s'.tableId t j = s.tableId t j
  len : ∀ j < s.tableCount t, s'.tableLen t j = s.tableLen t j
  adr : ∀ j < s.tableCount t, s'.tableAdr t j = s.tableAdr t j

theorem SameTable.lagrReady {s s' : State} {t : Nat} (h : SameTable s s' t) (hready : s.LagrReady t) :
    s'.LagrReady t := by
  obtain ⟨htable, hids, hlens, hpayloads, hout⟩ := hready
  have hlen0 := h.len 0 (tableCount_pos htable)
  refine ⟨by rwa [State.TableReadable, h.count], fun m hm j hj => ?_, fun j hj => ?_, fun j hj => ?_, ?_⟩
  · rw [h.count] at hm
    rw [h.id m hm, h.id j (by omega)]
    exact hids m hm j hj
  · rw [h.count] at hj
    rw [h.len j hj, hlen0]
    exact hlens j hj
  · rw [h.count] at hj
    rw [h.adr j hj, hlen0]
    exact hpayloads j hj
  · rw [h.out, hlen0]
    exact hout

theorem SameTable.noLateRead {s s' : State} {t : Nat} (h : SameTable s s' t) (htable : s.TableReadable t)
    (hlate : s.NoLateRead t) : s'.NoLateRead t := by
  intro j hj
  rw [h.count] at hj
  rw [h.out, h.adr j hj, h.len 0 (tableCount_pos htable)]
  exact hlate j hj

/-- A coefficient is a function of the IDs of the table's shares. -/
theorem basisAt_congr {id id' : Nat → Byte} {n j : Nat} (hj : j < n) (h : ∀ m < n, id' m = id m) :
    basisAt id' n j = basisAt id n j := by
  have hnum : basisNum id' n j = basisNum id n j := fieldProd_congr fun m hm => by rw [h m hm]
  have hden : basisDen id' n j = basisDen id n j := fieldProd_congr fun m hm => by rw [h m hm, h j hj]
  rw [basisAt, hnum, hden, basisAt]

/-- Settles O25: both output bytes are the sum over bytes and coefficients that agree. -/
theorem lagrLanesIndependent : Obligations.LagrLanesIndependent := by
  intro addr s s' t t' i hready hlate hcount hout htable hi hbytes ht ht'
  have hsame : SameTable s s' addr.toNat :=
    ⟨hcount, hout, fun j hj => (htable j hj).1, fun j hj => (htable j hj).2.1, fun j hj => (htable j hj).2.2⟩
  have hlen0 := hsame.len 0 (tableCount_pos hready.1)
  obtain ⟨u, hu, -, hvalue⟩ := exec_lagr_noLateRead hready hlate
  obtain ⟨u', hu', -, hvalue'⟩ := exec_lagr_noLateRead (hsame.lagrReady hready) (hsame.noLateRead hready.1 hlate)
  obtain rfl := Host.Outcome.next.inj (ht.symm.trans hu)
  obtain rfl := Host.Outcome.next.inj (ht'.symm.trans hu')
  rw [hvalue i hi, ← hout, hvalue' i (hlen0.symm ▸ hi), hcount]
  exact fieldSum_congr fun j hj => by rw [hsame.adr j hj, hbytes j hj, basisAt_congr hj hsame.id]

end Sys2Proof.Machine

end

/-! ### The words and the completion of LDI, LD, ST and WIPE (43_move_wipe R200 to R203)

LDI and LD compute one byte (`WritesOne`), ST changes LMEM alone. -/

section

namespace Sys2Proof

/-- The immediate of LDI is IMM12 cut to its low byte (30_encoding R104). -/
theorem ldiImm_eq_setWidth (imm12 : BitVec 12) : ldiImm imm12 = imm12.setWidth 8 :=
  (BitVec.setWidth_eq_extractLsb' (by decide)).symm

/-- IMM12[11:8] is 0 when IMM12 is a byte's number (43_move_wipe R200). -/
theorem and_highNibble_eq_zero_iff_lt (imm12 : BitVec 12) : imm12 &&& 0xF00#12 = 0#12 ↔ imm12.toNat < 256 := by
  constructor
  · intro h
    rw [← setWidth_ldiImm h, BitVec.toNat_setWidth_of_le (by omega)]
    exact (ldiImm imm12).isLt
  · intro h
    have hbyte : (imm12.setWidth 8).setWidth 12 = imm12 := by bv_omega
    rw [← hbyte]
    exact setWidth_byte_and_highNibble _

end Sys2Proof

namespace Sys2Proof.Machine

theorem writesOne_ldi (rd : Reg) (imm8 : Byte) : WritesOne (.ldi rd imm8) rd fun _ => .ok imm8 where
  exec_eq _ := rfl
  reads _ _ _ := rfl
  writesReg_eq _ := rfl

theorem writesOne_ld (rd : Reg) (addr : Addr) : WritesOne (.ld rd addr) rd (·.memRead addr.toNat) where
  exec_eq _ := rfl
  reads _ _ _ := rfl
  writesReg_eq _ := rfl

theorem exec_wipe_eq (s : State) : exec .wipe s = .next s.zeroAll.recordDone := rfl

/-- The state WIPE leaves is one that WIPE leaves as it is (43_move_wipe R203). -/
theorem zeroAll_recordDone_idem (s : State) :
    s.zeroAll.recordDone.zeroAll.recordDone = s.zeroAll.recordDone := rfl

/-- Settles O26. -/
theorem ldiRule : Obligations.LdiRule := by
  refine ⟨fun rd rs1 rs2 imm12 => wordMeans_of_decode ?_, fun rd imm8 s => (writesOne_ldi rd imm8).exec_of_ok rfl⟩
  simp [decode_wordOf, and_highNibble_eq_zero_iff_lt, ldiImm_eq_setWidth]

/-- Settles O27: every 12-bit address lies in LMEM. -/
theorem ldRule : Obligations.LdRule :=
  ⟨fun rd rs1 rs2 imm12 => wordMeans_of_decode (by simp [decode_wordOf]),
    fun rd addr _ => (writesOne_ld rd addr).exec_of_ok (memRead_of_lt addr.isLt)⟩

/-- Settles O28. -/
theorem stRule : Obligations.StRule := by
  refine ⟨fun rd rs1 rs2 imm12 => wordMeans_of_decode (by simp [decode_wordOf]), fun rs1 addr s => ?_⟩
  exact ⟨_, exec_st_eq rs1 addr s, fun a => lmemAt_putByte s addr.toNat a _, succeeded_of_lmem rfl⟩

/-- Settles O29. -/
theorem wipeRule : Obligations.WipeRule := by
  refine ⟨fun rd rs1 rs2 imm12 => wordMeans_of_decode (by simp [decode_wordOf]), fun s => ?_⟩
  have hdone : Succeeded s s.zeroAll.recordDone :=
    succeeded_recordDone ⟨rfl, rfl, rfl, rfl, rfl, rfl, rfl, rfl, rfl, rfl, rfl⟩
  refine ⟨s.zeroAll.recordDone, exec_wipe_eq s, readE_zero rfl, lmemAt_zeroAll s, hdone, ?_⟩
  rw [exec_wipe_eq, zeroAll_recordDone_idem]

end Sys2Proof.Machine

end

/-! ### What a failed command leaves, and which command records which error (60_exceptions R221, R225, R227)

A completion that answers has run a whole rule or has recorded an error on the state before (`Answered`), so where ERR
rises nothing of the rule is kept. `errorsOf` is R221's table read by command. -/

section

namespace Sys2Proof.Machine

/-- A completion that sets ERR took the failure branch, since the success branch leaves ERR. -/
theorem Answered.eq_recordError {s t : State} (h : Answered s t) (hs : s.err = false) (ht : t.err = true) :
    ∃ c w, t = s.recordError c w := by
  rcases h with ⟨u, ⟨hu, -⟩, rfl⟩ | hfailed
  · rw [hu, State.recordDone_err] at ht
    exact absurd (hs.symm.trans ht) Bool.false_ne_true
  · exact hfailed

/-- An error recorded right after acceptance, seen from the idle state before it (60_exceptions R225, R227). -/
theorem recordError_accept {s : State} (hbusy : s.busy = false) (c : Word) (code : ErrorCode) (info : Word) :
    (s.accept c).recordError code info
      = { s with lastCmd := c, done := false, err := true, errCode := errorNumber code, errInfo := info } := by
  have hpend : s.pend = none := by simpa [State.busy] using hbusy
  rw [State.recordError, State.accept, ← hpend]

theorem irq_recordError (s : State) (code : ErrorCode) (info : Word) : (s.recordError code info).irq = s.ie := by
  rw [State.irq, State.recordError_err, Bool.or_true, Bool.and_true, State.recordError_ie]

/-- Settles O31. -/
theorem failedCommandWritesNothing : Obligations.FailedCommandWritesNothing := by
  intro c s t hbusy herr h ht
  obtain ⟨code, info, rfl⟩ := (completeWord_answered h).eq_recordError herr ht
  exact ⟨recordError_accept hbusy c code info, rfl, irq_recordError _ code info, hostRead_cmd _⟩

/-- The errors whose "raised by" column names the command (60_exceptions R221). -/
def errorsOf : Instr → List ErrorCode
  | .finv .. | .fdiv .. => [.divideByZero]
  | .peval .. => [.addressRange]
  | .lagr _ => lagrErrors
  | _ => []

/-- The command i run on s succeeds or records one of the errors listed. -/
def RecordsOnly (errors : List ErrorCode) (i : Instr) (s : State) : Prop :=
  ∃ t, exec i s = .next t ∧ (Succeeded s t ∨ ∃ c ∈ errors, ∃ w, Failed s t (errorNumber c) w)

theorem recordsOnly_of_succeeded {errors : List ErrorCode} {i : Instr} {s : State} {P Q : State → Prop}
    (h : ∃ t, exec i s = .next t ∧ P t ∧ Q t ∧ Succeeded s t) : RecordsOnly errors i s := by
  obtain ⟨t, ht, -, -, hdone⟩ := h
  exact ⟨t, ht, .inl hdone⟩

theorem recordsOnly_of_failed {errors : List ErrorCode} {i : Instr} {s : State} {c : ErrorCode} {w : Word}
    (hc : c ∈ errors) (h : ∃ t, exec i s = .next t ∧ Failed s t (errorNumber c) w) : RecordsOnly errors i s := by
  obtain ⟨t, ht, hfailed⟩ := h
  exact ⟨t, ht, .inr ⟨c, hc, w, hfailed⟩⟩

/-- Every command records only the errors R221 lists for it, by the command's own rule. -/
theorem exec_recordsOnly (i : Instr) (s : State) : RecordsOnly (errorsOf i) i s := by
  cases i with
  | fadd rd rs1 rs2 => exact recordsOnly_of_succeeded (faddRule.2 rd rs1 rs2 s)
  | fsub rd rs1 rs2 => exact recordsOnly_of_succeeded (fsubRule.2 rd rs1 rs2 s).2
  | fmul rd rs1 rs2 => exact recordsOnly_of_succeeded (fmulRule.2.1 rd rs1 rs2 s)
  | finv rd rs1 =>
    obtain ⟨-, hok, hzero, -⟩ := finvRule
    by_cases h : s.readE rs1 = 0x00
    · exact recordsOnly_of_failed (c := .divideByZero) (List.mem_singleton_self _) (hzero rd rs1 s h)
    · exact recordsOnly_of_succeeded (hok rd rs1 s h)
  | fdiv rd rs1 rs2 =>
    obtain ⟨-, hok, hzero, -⟩ := fdivRule
    by_cases h : s.readE rs2 = 0x00
    · exact recordsOnly_of_failed (c := .divideByZero) (List.mem_singleton_self _) (hzero rd rs1 rs2 s h)
    · exact recordsOnly_of_succeeded (hok rd rs1 rs2 s h)
  | peval rd rs1 rs2 addr =>
    by_cases h : RangeOk addr.toNat (s.readE rs2).toNat
    · exact recordsOnly_of_succeeded (exec_peval_of_rangeOk rd rs1 rs2 h)
    · exact recordsOnly_of_failed (c := .addressRange) (List.mem_singleton_self _)
        (exec_peval_of_not_rangeOk rd rs1 rs2 h)
  | lagr addr =>
    rcases exec_lagr_cases addr s with ⟨-, t, ht, hdone⟩ | ⟨c, hc, w, hfailed⟩
    · exact ⟨t, ht, .inl hdone⟩
    · exact recordsOnly_of_failed hc hfailed
  | ldi rd imm8 => exact recordsOnly_of_succeeded (ldiRule.2 rd imm8 s)
  | ld rd addr => exact recordsOnly_of_succeeded (ldRule.2 rd addr s)
  | st rs1 addr => exact recordsOnly_of_succeeded (stRule.2 rs1 addr s)
  | wipe =>
    obtain ⟨t, ht, -, -, hdone, -⟩ := wipeRule.2 s
    exact ⟨t, ht, .inl hdone⟩

/-- A command that sets ERR has recorded one of its own errors. -/
theorem exec_errCode {i : Instr} {s t : State} (hs : s.err = false) (h : exec i s = .next t) (ht : t.err = true) :
    ∃ c ∈ errorsOf i, t.errCode = errorNumber c := by
  obtain ⟨u, hu, hcases⟩ := exec_recordsOnly i s
  obtain rfl := Host.Outcome.next.inj (h.symm.trans hu)
  rcases hcases with ⟨-, -, herr, -⟩ | ⟨c, hc, -, -, -, hcode, -⟩
  · exact absurd (hs.symm.trans (herr.symm.trans ht)) Bool.false_ne_true
  · exact ⟨c, hc, hcode⟩

theorem errorNumber_of_mem_lagrErrors : ∀ c ∈ lagrErrors,
    errorNumber c = 0x03 ∨ errorNumber c = 0x04 ∨ errorNumber c = 0x05 ∨ errorNumber c = 0x06 := by
  decide

/-- Settles O32: the cases of the decoded command, each with its list of errors. -/
theorem errorCodesByCommand : Obligations.ErrorCodesByCommand := by
  intro c s t hs h ht
  rcases completeWord_cases h with ⟨i, hi, hexec⟩ | ⟨hillegal, rfl⟩
  case inr => exact .inl ⟨hillegal, rfl⟩
  obtain ⟨e, he, hcode⟩ := exec_errCode hs hexec ht
  cases i with
  | finv rd rs1 =>
    obtain rfl := List.mem_singleton.1 he
    exact .inr (.inl ⟨⟨rd, rs1, hi⟩, hcode⟩)
  | fdiv rd rs1 rs2 =>
    obtain rfl := List.mem_singleton.1 he
    exact .inr (.inr (.inl ⟨⟨rd, rs1, rs2, hi⟩, hcode⟩))
  | peval rd rs1 rs2 addr =>
    obtain rfl := List.mem_singleton.1 he
    exact .inr (.inr (.inr (.inl ⟨⟨rd, rs1, rs2, addr, hi⟩, hcode⟩)))
  | lagr addr => exact .inr (.inr (.inr (.inr ⟨⟨addr, hi⟩, hcode ▸ errorNumber_of_mem_lagrErrors e he⟩)))
  | fadd | fsub | fmul | ldi | ld | st | wipe => exact absurd he List.not_mem_nil

end Sys2Proof.Machine

end

/-! ### The resets (70_reset R260, R262)

An edge of rst leaves the reset state, which a step keeps while rst is asserted. What a soft reset leaves in LMEM is read
off the completion of the word in flight (`lmemAt_softReset_or`). -/

section

namespace Sys2Proof.Machine

theorem hardReset_atReset (s : State) (b : Bool) : (s.hardReset b).AtReset :=
  ⟨rfl, rfl, rfl, rfl, rfl, rfl, rfl, rfl, rfl, rfl⟩

theorem hostRead_status (s : State) : s.hostRead 0x008 = (.ok, s.statusWord) := rfl

theorem statusWord_of_atReset {s : State} (h : s.AtReset) : s.statusWord = 0x00000000 := by
  obtain ⟨-, -, hpend, -, hdone, herr, hovr, hcode, -, -⟩ := h
  rw [State.statusWord, State.busy, hpend, hdone, herr, hovr, hcode]
  rfl

theorem ctrlWord_of_atReset {s : State} (h : s.AtReset) : s.ctrlWord = 0x00000000 := by
  obtain ⟨-, -, -, -, -, -, -, -, -, hie⟩ := h
  rw [ctrlWord_eq, hie]
  rfl

theorem irq_of_atReset {s : State} (h : s.AtReset) : s.irq = false := by
  obtain ⟨-, -, -, -, hdone, herr, -⟩ := h
  exact irq_low hdone herr

/-- Settles O42: the arrival of an edge is `State.hardReset`, which lists no byte of LMEM under the next draw. -/
theorem hardwareResetRestoresResetState : Obligations.HardwareResetRestoresResetState := by
  intro s b
  have hreset : (s.deliver (.rst b)).AtReset := hardReset_atReset s b
  exact ⟨rfl, rfl, readE_zero rfl, rfl, statusWord_of_atReset hreset, ctrlWord_of_atReset hreset, rfl, fun _ => rfl⟩

/-- While rst is asserted nothing completes and no write takes effect: a step is an edge of rst or holds the unit. -/
theorem StepTo.of_asserted {s t : State} (h : StepTo s t) (hrst : s.rst = true) (hs : s.AtReset) :
    t.AtReset ∧ (t.rst = true ∨ ∃ rest, s.ReceivesNext (.rst false) rest) := by
  cases h with
  | completes c hc _ =>
    obtain ⟨-, -, hpend, -⟩ := hs
    exact absurd (hpend.symm.trans hc.1) nofun
  | edge b rest hx ht =>
    subst ht
    refine ⟨hardReset_atReset _ b, ?_⟩
    cases b with
    | true => exact .inl rfl
    | false => exact .inr ⟨rest, hx⟩
  | wrote off d rest _ hreleased => exact absurd (hreleased.symm.trans hrst) Bool.false_ne_true
  | held ht =>
    rw [ht]
    exact ⟨hs, .inl hrst⟩

/-- Settles O43. -/
theorem assertedResetHoldsTheUnit : Obligations.AssertedResetHoldsTheUnit := by
  intro s t hrst hs h
  obtain ⟨ht, hlevel⟩ := (step_to h).of_asserted hrst hs
  refine ⟨ht, hlevel, ?_, ?_, irq_of_atReset ht⟩
  · rw [hostRead_status, statusWord_of_atReset ht]
  · rw [hostRead_ctrl, ctrlWord_of_atReset ht]

/-- The LMEM a soft reset draws from is the one the completion leaves. -/
theorem lmemAfter_of_completeWord {c : Word} {s u : State} (h : completeWord c s = .next u) :
    s.lmemAfter c = u.lmem := by
  rcases completeWord_cases h with ⟨i, hi, hexec⟩ | ⟨hillegal, rfl⟩
  · simp only [State.lmemAfter, hi, hexec]
  · simp only [State.lmemAfter, hillegal, State.recordError_lmem]

/-- A soft reset leaves each LMEM byte as it is or as the completion of the word in flight would (70_reset R262). -/
theorem lmemAt_softReset_or {s u : State} {c : Word} (hc : s.pend = some c) (h : completeWord c s = .next u) {a : Nat}
    (ha : a < 4096) : s.softReset.lmemAt a = s.lmemAt a ∨ s.softReset.lmemAt a = u.lmemAt a := by
  obtain ⟨-, -, -, -, -, -, -, hdraw, -⟩ := (completeWord_answered h).control
  rw [lmemAt_softReset hc ha, lmemAfter_of_completeWord h]
  split
  · right
    apply lmemAt_congr
    · rfl
    · exact hdraw.symm
  · exact .inl rfl

/-- Where the completion would change no byte, a soft reset changes none. -/
theorem lmemAt_softReset_of_sameLmem {s u : State} {c : Word} (hc : s.pend = some c) (h : completeWord c s = .next u)
    (hsame : SameLmem s u) {a : Nat} (ha : a < 4096) : s.softReset.lmemAt a = s.lmemAt a :=
  (lmemAt_softReset_or hc h ha).elim id (·.trans (hsame a))

/-- A completion that sets ERR leaves LMEM (60_exceptions R225). -/
theorem Answered.sameLmem_of_err {s t : State} (h : Answered s t) (hs : s.err = false) (ht : t.err = true) :
    SameLmem s t := by
  obtain ⟨c, w, rfl⟩ := h.eq_recordError hs ht
  exact lmemAt_recordError s c w

/-- Settles O44: the registers by `softReset_frame`, LMEM by the completion of the word in flight. -/
theorem softResetRule : Obligations.SoftResetRule := by
  refine ⟨fun s w hw => ?_, fun s => ?_, fun s => lmemAt_softReset_idle, fun s c hc hillegal a ha => ?_,
    fun s u c i hc hi hexec => ?_⟩
  · rw [hostWrite_ctrl, writeCtrl_softReset hw]
  · rw [softReset_frame]
    exact ⟨readE_zero rfl, rfl, rfl, rfl, rfl, rfl, rfl, rfl, rfl⟩
  · exact lmemAt_softReset_of_sameLmem hc (completeWord_of_illegal hillegal s) (lmemAt_recordError s _ _) ha
  · have hword : completeWord c s = .next u := (completeWord_of_decode hi s).trans hexec
    refine ⟨fun a => lmemAt_softReset_or hc hword, fun hkept a => lmemAt_softReset_of_sameLmem hc hword ?_⟩
    rcases hkept with hi | ⟨hs, hu⟩
    · exact exec_sameLmem hexec hi
    · exact (exec_answered hexec).sameLmem_of_err hs hu

end Sys2Proof.Machine

end

/-! ### The listed words (95_test_vectors section 2.3) -/

section

namespace Sys2Proof

/-- By the two round trips, a word decodes to a command exactly when it is that command's word. -/
theorem decode_eq_some_iff_encode {c : Word} {i : Instr} : decode c = some i ↔ encode i = c :=
  ⟨encodeDecodeRoundTrip c i, fun h => h ▸ decodeEncodeRoundTrip i⟩

/-- Settles O5: each listed word is the encoding of the command beside it. -/
theorem specWordsDecodeAsListed : Obligations.SpecWordsDecodeAsListed := by
  simp only [Obligations.SpecWordsDecodeAsListed, decode_eq_some_iff_encode]
  decide

end Sys2Proof

end
